-- ==== Sys2Proof/Word.lean ====
section
/-! DEFINITION. The word types: bytes of the stream and the buffers, the 13-bit registers, the 32-bit host data word and
the 14-bit port offset (spec/00_scope.md R8, R9; spec/10_state.md R21 to R23, R29). -/

namespace Sys2Proof

/-- A byte is 8 bits (R9). -/
abbrev Byte := BitVec 8

/-- The width of the cursors, the budgets, the lengths and the counts: 13 bits, holding 0..4096 (R8, R21 to R23, R36, R38, R39). -/
abbrev Cursor := BitVec 13

/-- A host register is 32 bits (R8). -/
abbrev Word := BitVec 32

/-- The host port's byte offset: 14 bits, 0x0000..0x3FFF (R29). -/
abbrev PortOffset := BitVec 14

end Sys2Proof
end

