-- ==== Sys2Proof/Syntax.lean ====
section
/-! DEFINITION. The tokens of the two grammars, one constructor per row of spec/opcode_table.json. A token carries the fields
the bit-field token extractor latches (spec/10_state.md R24), at the latches' widths; its literal bytes stay in `IN` and
are read when it commits (R134). -/

namespace Sys2Proof

/-- The two grammars (R2): V1 is EXEPACK:1, V2 is EXEPACK:2. -/
inductive Grammar where
  | v1
  | v2
deriving DecidableEq, Repr

/-- A token (R91, R97 to R103). Counts and lengths are the decoded values, biases already added (R104). -/
inductive Instr where
  /-- V1 record: repeat count and span length (R91, R150) -/
  | record (rep span : BitVec 16)
  /-- shape 0 literal run of `n` bytes (R97, R171) -/
  | lit (n : BitVec 6)
  /-- shape 0 fill: `m` bytes of value `v` (R98, R172) -/
  | fill (m v : BitVec 8)
  /-- shape 0 end-of-page marker (R99, R173) -/
  | endPage
  /-- shape 1: `nr` literals, then `len` bytes from `off` back (R100, R101, R174) -/
  | br1 (nr : BitVec 4) (len : BitVec 6) (off : BitVec 12)
  /-- shape 2: `len` bytes from `off` back (R102, R175) -/
  | br2 (len : BitVec 6) (off : BitVec 12)
  /-- shape 3: `nr` literals, then `len` bytes from `off` back (R103, R176) -/
  | br3 (nr : BitVec 4) (len : BitVec 6) (off : BitVec 12)
deriving DecidableEq, Repr

end Sys2Proof
end

