-- ==== Sys2Proof/WellFormed.lean ====
section
/-! DEFINITION. Which terms of `Instr` spell a token: the operand ranges of spec/30_encoding.md R109 (an operand outside its range
spells no token). -/

namespace Sys2Proof

/-- The operand ranges (R97 to R103, R109). -/
def Instr.wf : Instr → Bool
  | .record _ _ => true
  | .lit n => n ≠ 0
  | .fill m _ => m ≠ 0
  | .endPage => true
  | .br1 nr len off => nr.toNat ≤ 3 && 3 ≤ len.toNat && len.toNat ≤ 10 && off.toNat ≤ 511
  | .br2 len _ => 3 ≤ len.toNat && len.toNat ≤ 6
  | .br3 _ _ _ => true

end Sys2Proof
end

