-- ==== Sys2Proof/Decode.lean ====
section
/-! DEFINITION. The bit-field token extractor (spec/30_encoding.md R90 to R110): decoding is total on any bytes, and answers
either a token with the bytes that follow its fixed bytes, or how many fixed bytes it needs when the bytes stop inside them.
No byte pattern is illegal (R106). After it, the encoder, written from R110. A token's lengths stand before both. -/

namespace Sys2Proof

/-- The grammar a token belongs to (R2, R108). -/
def Instr.grammar : Instr → Grammar
  | .record _ _ => .v1
  | .lit _ => .v2
  | .fill _ _ => .v2
  | .endPage => .v2
  | .br1 _ _ _ => .v2
  | .br2 _ _ => .v2
  | .br3 _ _ _ => .v2

/-- How many of a token's bytes are fixed: its header, control bytes and fill value (R131, R179). -/
def Instr.fixedLength : Instr → Nat
  | .record _ _ => 4
  | .lit _ => 1
  | .fill _ _ => 3
  | .endPage => 2
  | .br1 _ _ _ => 2
  | .br2 _ _ => 2
  | .br3 _ _ _ => 3

/-- How many literal bytes follow the fixed bytes: the V1 span, the `LIT` literals, the `BR1`/`BR3` literal prefix. -/
def Instr.literalLength : Instr → Nat
  | .record _ span => span.toNat
  | .lit n => n.toNat
  | .fill _ _ => 0
  | .endPage => 0
  | .br1 nr _ _ => nr.toNat
  | .br2 _ _ => 0
  | .br3 nr _ _ => nr.toNat

/-- The token's length in bytes (R95). -/
def Instr.length (i : Instr) : Nat := i.fixedLength + i.literalLength

/-- How many bytes of `OUT` the token writes when it commits (R133, R150, R171 to R176). -/
def Instr.written : Instr → Nat
  | .record rep span => rep.toNat * span.toNat
  | .lit n => n.toNat
  | .fill m _ => m.toNat
  | .endPage => 0
  | .br1 nr len _ => nr.toNat + len.toNat
  | .br2 len _ => len.toNat
  | .br3 nr len _ => nr.toNat + len.toNat

/-- What decoding answers. -/
inductive Decoded where
  /-- a token, and the bytes after its fixed bytes (its literal bytes come first among them) -/
  | token (i : Instr) (rest : List Byte)
  /-- the bytes stop inside the token's fixed bytes, of which `k` are known to be needed (R95, R131) -/
  | needs (k : Nat)
deriving DecidableEq, Repr

/-- The V1 record header, two little-endian 16-bit fields (R60, R91, R92). -/
def decodeV1 : List Byte → Decoded
  | b0 :: b1 :: b2 :: b3 :: rest => .token (.record (b1 ++ b0) (b3 ++ b2)) rest
  | _ => .needs 4

/-- Shape 0 (R94): literal run, fill run or end marker. -/
def decodeShape0 (b0 : Byte) (bs : List Byte) : Decoded :=
  if b0.extractLsb' 2 6 ≠ 0 then .token (.lit (b0.extractLsb' 2 6)) bs
  else match bs with
    | [] => .needs 2
    | b1 :: rest =>
      if b1 = 0 then .token .endPage rest
      else match rest with
        | [] => .needs 3
        | b2 :: rest' => .token (.fill b1 b2) rest'

/-- Shape 1 (R100, R101): `nr = b0[3:2]`, `len = b0[6:4] + 3`, `off = (b1 << 1) | b0[7]`. -/
def decodeShape1 (b0 : Byte) : List Byte → Decoded
  | b1 :: rest =>
    .token (.br1 ((b0.extractLsb' 2 2).setWidth 4) ((b0.extractLsb' 4 3).setWidth 6 + 3)
      ((b1 ++ b0.extractLsb' 7 1).setWidth 12)) rest
  | [] => .needs 2

/-- Shape 2 (R102): `len = b0[3:2] + 3`, `off = (b1 << 4) | b0[7:4]`. -/
def decodeShape2 (b0 : Byte) : List Byte → Decoded
  | b1 :: rest => .token (.br2 ((b0.extractLsb' 2 2).setWidth 6 + 3) (b1 ++ b0.extractLsb' 4 4)) rest
  | [] => .needs 2

/-- Shape 3 (R103): `nr = b0[5:2]`, `len = (b1[3:0] << 2) | b0[7:6]`, `off = (b2 << 4) | b1[7:4]`. -/
def decodeShape3 (b0 : Byte) : List Byte → Decoded
  | b1 :: b2 :: rest =>
    .token (.br3 (b0.extractLsb' 2 4) (b1.extractLsb' 0 4 ++ b0.extractLsb' 6 2) (b2 ++ b1.extractLsb' 4 4)) rest
  | _ => .needs 3

/-- The V2 decode map on the control byte's tag, bits 1:0 (R93, R105). -/
def decodeV2 : List Byte → Decoded
  | [] => .needs 1
  | b0 :: bs =>
    if b0.extractLsb' 0 2 = 0#2 then decodeShape0 b0 bs
    else if b0.extractLsb' 0 2 = 1#2 then decodeShape1 b0 bs
    else if b0.extractLsb' 0 2 = 2#2 then decodeShape2 b0 bs
    else decodeShape3 b0 bs

/-- Decode the token at the head of `bs` under a grammar; nothing in the stream says which grammar it is (R108). -/
def decode (g : Grammar) (bs : List Byte) : Decoded :=
  match g with
  | .v1 => decodeV1 bs
  | .v2 => decodeV2 bs

/-- The fixed bytes of a token (R110). -/
def encode : Instr → List Byte
  | .record rep span => [rep.extractLsb' 0 8, rep.extractLsb' 8 8, span.extractLsb' 0 8, span.extractLsb' 8 8]
  | .lit n => [n ++ 0#2]
  | .fill m v => [0, m, v]
  | .endPage => [0, 0]
  | .br1 nr len off =>
    [off.extractLsb' 0 1 ++ (len - 3).extractLsb' 0 3 ++ nr.extractLsb' 0 2 ++ 1#2, off.extractLsb' 1 8]
  | .br2 len off => [off.extractLsb' 0 4 ++ (len - 3).extractLsb' 0 2 ++ 2#2, off.extractLsb' 4 8]
  | .br3 nr len off =>
    [len.extractLsb' 0 2 ++ nr ++ 3#2, off.extractLsb' 0 4 ++ len.extractLsb' 2 4, off.extractLsb' 4 8]

/-- A whole token as it stands in the stream: its fixed bytes, then its literal bytes (R109, R110). -/
def encodeToken (i : Instr) (data : List Byte) : List Byte := encode i ++ data

/-- The grammar of an opcode-table row of `nbits` bits: only the V1 record's header is wider than 24 bits (log entry 12). -/
def tableGrammar (nbits : Nat) : Grammar := if 24 < nbits then .v1 else .v2

/-- Byte `a` of a table word of `nbits` bits laid out in stream order; every byte above `nbits` is 0. -/
def tableByte (nbits w a : Nat) : Byte := BitVec.ofNat 8 ((w % 2 ^ nbits) >>> (8 * a))

/-- The instruction the decoder reads from a table word (bit 0 is the least significant bit of the first byte). -/
def decodeTableWord (nbits w : Nat) : Option Instr :=
  match decode (tableGrammar nbits) ((List.range 4).map (tableByte nbits w)) with
  | .token i _ => some i
  | .needs _ => none

end Sys2Proof
end

