-- ==== Sys2Proof/Config.lean ====
section
/-! DEFINITION. What is fixed for the machine: the page size, the OPEN parameters of spec/92_eei_decisions.md section 2, and the
free values the spec calls draws. A free value has no body that a proof can see. -/

namespace Sys2Proof

/-- `PAGE_SIZE` and `IN_SIZE`: 4096 bytes, fixed (R8). -/
abbrev pageSize : Nat := 4096

/-- `P_V1_DST_CHECK` (R152, D8): when the V1 destination check is made. OPEN; State holds the value of this machine. -/
inductive V1DstCheck where
  /-- the whole record is checked before any byte of it is written (the default) -/
  | wholeRecord
  /-- each repetition is checked just before it is written -/
  | perRepetition
deriving DecidableEq, Repr

/-- `EXPK_BASE` (R69, D2): where the platform puts the port of instance `k` in its address map. OPEN, no value known. -/
opaque Config.expkBase : Nat → Nat

/-- The draw a host read of an unwritten buffer byte returns (R46); the argument counts the draws taken so far.
DESIGN CHOICE, unsafe (log entry 4): every instance (R233) and every run reads this one sequence, so two states with the same
count draw the same byte, whichever instance or offset is read. The spec does not say that draws agree; no statement may rest on
it. -/
opaque Config.drawByte : Nat → Byte

/-- The draw a host read of a count register returns in bits 12:0 while BUSY (R47); the argument counts the draws so far.
DESIGN CHOICE, unsafe (log entry 4): one sequence for every instance and every run, as `Config.drawByte`. -/
opaque Config.drawCount : Nat → BitVec 13

end Sys2Proof
end

