-- ==== Sys2Proof/Machine/State.lean ====
section
/-! DEFINITION. State as plain data: all the state spec/10_state.md gives the block (R21 to R25, R30 to R39, R41, R42), the
parameter `P_V1_DST_CHECK`, and the model's own three fields. Reset is R44. -/

namespace Sys2Proof.Machine

/-- A buffer of bytes, each known or unwritten (R46): the known bytes, addresses strictly rising. An address that is not
listed is unwritten. -/
abbrev Memory := List Host.Cell

/-- The run state of the controller (R25). -/
inductive RunState where
  /-- never started since reset, or cleared -/
  | idle
  /-- a run is in progress -/
  | run
  /-- the last run succeeded -/
  | doneOk
  /-- the last run failed -/
  | doneErr
deriving DecidableEq, Repr

/-- The block's own fault kinds (R220). They end the run and the machine goes on. -/
inductive FaultKind where
  | sourceExhausted
  | sourceOverrun
  | destinationOverrun
  | invalidBackReference
  /-- raised by the START action only (R201) -/
  | badSourceLength
deriving DecidableEq, Repr

/-- The transient field latches of the bit-field token extractor (R24). -/
structure TokenLatches where
  tag : BitVec 2
  n : BitVec 6
  m : BitVec 8
  v : BitVec 8
  nr : BitVec 4
  len : BitVec 6
  off : BitVec 12
  rep : BitVec 16
  span : BitVec 16
deriving DecidableEq, Repr

/-- The widths a host access may have (R62). -/
inductive PortWidth where
  | byte
  | half
  | word
deriving DecidableEq, Repr

/-- The data of a host access: as many bits as the access is wide (R61, R62). -/
inductive PortData where
  | byte (v : BitVec 8)
  | half (v : BitVec 16)
  | word (v : BitVec 32)
deriving DecidableEq, Repr

/-- One move of the outside world: a host write, a host read, or reset (R29, R251). -/
inductive HostAction where
  | write (offset : PortOffset) (data : PortData)
  | read (offset : PortOffset) (width : PortWidth)
  | reset
deriving DecidableEq, Repr

/-- Whose turn it is: host and engine moves interleave in any order (R262). -/
inductive Turn where
  | engine
  | host (a : HostAction)
deriving DecidableEq, Repr

/-- The machine's state: one instance of the block (R233). -/
structure State where
  /-- IDLE, RUN, DONE_OK or DONE_ERR (R25) -/
  runState : RunState
  /-- `STATUS.ERRCODE` (R37) -/
  errCode : BitVec 3
  /-- `CTRL.ALG` (R32) -/
  alg : Grammar
  /-- `CTRL.IRQ_EN` (R33) -/
  irqEn : Bool
  /-- `SRC_LEN.LEN` (R36) -/
  srcLen : Cursor
  /-- `DST_COUNT.COUNT` (R38) -/
  dstCount : Cursor
  /-- `SRC_COUNT.COUNT` (R39) -/
  srcCount : Cursor
  /-- `SRC_POS`, the source cursor `s` (R21) -/
  srcPos : Cursor
  /-- `DST_POS`, the destination cursor `d` (R21) -/
  dstPos : Cursor
  /-- `SRC_BUDGET`, `src_rem` (R23) -/
  srcBudget : Cursor
  /-- `DST_BUDGET`, `dst_rem` (R23) -/
  dstBudget : Cursor
  /-- `SRC_LEN_RUN` (R22) -/
  srcLenRun : Cursor
  /-- `ALG_RUN` (R22) -/
  algRun : Grammar
  /-- the token field latches (R24) -/
  latches : TokenLatches
  /-- the input page buffer `IN` (R41) -/
  inp : Memory
  /-- the output page buffer `OUT` (R42) -/
  out : Memory
  /-- the parameter `P_V1_DST_CHECK` (R152); no step changes it -/
  v1DstCheck : V1DstCheck
  /-- the model's own: the turns still to come; when there is none the engine has the turn -/
  turns : List Turn
  /-- the model's own: what the host port has returned, latest first -/
  reads : List PortData
  /-- the model's own: how many draws have been taken -/
  draws : Nat
deriving DecidableEq, Repr

/-- Why the model stops. None of these is a fault of the block's own (those are `FaultKind`, and the machine goes on). -/
inductive Fault where
  /-- The engine would read an `IN` byte that nothing has written since reset (R255). Raised by fetch and by every copy of
  literal bytes. Safe. -/
  | unwrittenInput (offset : Nat)
  /-- The engine would read an `OUT` byte that nothing has written. Raised by the back-reference copy only, from states that
  break the invariant of Safety.lean (R137 rules it out in a run). Safe. -/
  | unwrittenOutput (offset : Nat)
  /-- The engine would write at or past offset 4096. Raised by the write primitive only, from states that break the invariant
  of Safety.lean (R66, R132 rule it out in a run). Safe. -/
  | outsideBuffer (offset : Nat)
deriving DecidableEq, Repr

/-- Moves that the host does not have, and instructions without a meaning. -/
inductive Refusal where
  /-- An instruction with no meaning yet. Raised by exec's arms only. Safe. -/
  | notModelled (mnemonic : String)
  /-- A host access whose offset is not a multiple of its width (R62). Raised by the host port. Safe. -/
  | misalignedAccess
  /-- A register-space access that is not 4 bytes wide (R62). Raised by the host port. Safe. -/
  | registerWidth
  /-- A host access to `IN` or `OUT` while BUSY (R260). Raised by the host port. Safe. -/
  | bufferWhileBusy
deriving DecidableEq, Repr

/-- The latches' named reset value; the spec leaves it unspecified and no rule reads it (R44; log entry 2). -/
def TokenLatches.reset : TokenLatches :=
  { tag := 0, n := 0, m := 0, v := 0, nr := 0, len := 0, off := 0, rep := 0, span := 0 }

/-- The machine right after reset (R44, R250). -/
def State.reset : State :=
  { runState := .idle, errCode := 0, alg := .v1, irqEn := false, srcLen := 0, dstCount := 0, srcCount := 0,
    srcPos := 0, dstPos := 0, srcBudget := 0, dstBudget := 0, srcLenRun := 0, algRun := .v1,
    latches := .reset, inp := [], out := [], v1DstCheck := .wholeRecord, turns := [], reads := [], draws := 0 }

end Sys2Proof.Machine
end

