-- ==== Sys2Proof/Machine/Flags.lean ====
section
/-! DEFINITION. Every flag and status computation: the fault codes (spec/60_exceptions.md R220), the bits of `STATUS`
(spec/10_state.md R25, R37), the words the host reads from the registers (R30, R36 to R39), and the output `done_irq`
(R43). -/

namespace Sys2Proof.Machine

/-- The `ERRCODE` of a fault kind (R220). -/
def FaultKind.code : FaultKind → BitVec 3
  | .sourceExhausted => 1
  | .sourceOverrun => 2
  | .destinationOverrun => 3
  | .invalidBackReference => 4
  | .badSourceLength => 5

/-- `STATUS.BUSY` (R25, R37). -/
def State.busy (s : State) : Bool :=
  match s.runState with
  | .idle => false
  | .run => true
  | .doneOk => false
  | .doneErr => false

/-- `STATUS.DONE` (R25, R37). -/
def State.done (s : State) : Bool :=
  match s.runState with
  | .idle => false
  | .run => false
  | .doneOk => true
  | .doneErr => true

/-- `STATUS.ERR` (R25, R37). -/
def State.err (s : State) : Bool :=
  match s.runState with
  | .idle => false
  | .run => false
  | .doneOk => false
  | .doneErr => true

/-- The output `done_irq = STATUS.DONE AND CTRL.IRQ_EN`, a level (R43, R228). -/
def State.doneIrq (s : State) : Bool := s.done && s.irqEn

/-- `CTRL.ALG` as a bit: 0 = V1, 1 = V2 (R30). -/
def algBit : Grammar → BitVec 1
  | .v1 => 0
  | .v2 => 1

/-- The grammar a written `ALG` bit selects (R30, R32). -/
def algOfBit (b : Bool) : Grammar := if b then .v2 else .v1

/-- `CTRL` as the host reads it: START and CLEAR read 0, bits 31:4 read 0 (R30). -/
def State.ctrlWord (s : State) : Word := 0#28 ++ 0#1 ++ BitVec.ofBool s.irqEn ++ algBit s.alg ++ 0#1

/-- `SRC_LEN` as the host reads it (R36). -/
def State.srcLenWord (s : State) : Word := 0#19 ++ s.srcLen

/-- `STATUS` as the host reads it: ERRCODE in bits 6:4, bit 3 reserved, then ERR, DONE, BUSY (R37). -/
def State.statusWord (s : State) : Word :=
  0#25 ++ s.errCode ++ 0#1 ++ BitVec.ofBool s.err ++ BitVec.ofBool s.done ++ BitVec.ofBool s.busy

/-- A count register as the host reads it: the count in bits 12:0, 0 above (R38, R39). -/
def countWord (c : Cursor) : Word := 0#19 ++ c

end Sys2Proof.Machine
end

