-- ==== Sys2Proof/Machine/Operands.lean ====
section
/-! DEFINITION. Every way a token or the host reaches an operand: the bytes of the buffers (spec/20_memory.md R60 to R67), the
fetch of a token at the source cursor (spec/10_state.md R26), the field latches (R24), the back-reference validator
(spec/40_bounded_copy.md R136) and the places of the host's port (spec/10_state.md R29). -/

namespace Sys2Proof.Machine

/-! ### The bytes of a buffer -/

/-- The byte at offset `a`, if it is known (R46). -/
def Memory.read : Memory → Nat → Option Byte
  | [], _ => none
  | (k, b) :: m, a => if a = k then some b else Memory.read m a

/-- The memory with byte `v` at offset `a`, addresses kept rising. -/
def Memory.write : Memory → Nat → Byte → Memory
  | [], a, v => [(a, v)]
  | (k, b) :: m, a, v =>
    if a < k then (a, v) :: (k, b) :: m
    else if a = k then (a, v) :: m
    else (k, b) :: Memory.write m a v

/-- The canonical form: addresses strictly rising, all inside the buffer. An unlisted address reads as unwritten, which no
entry can be. -/
abbrev Memory.wf (m : Memory) : Prop := m.Pairwise (fun x y => x.1 < y.1) ∧ ∀ c ∈ m, c.1 < pageSize

/-- The engine reads `IN[a]`; an unwritten byte is the model's fault `unwrittenInput` (R255). -/
def readIn (m : Memory) (a : Nat) : Except Fault Byte :=
  match m.read a with
  | some b => .ok b
  | none => .error (.unwrittenInput a)

/-- The engine reads `OUT[a]`; R137 says that the byte was written by the same run. -/
def readOut (m : Memory) (a : Nat) : Except Fault Byte :=
  match m.read a with
  | some b => .ok b
  | none => .error (.unwrittenOutput a)

/-- The engine writes `OUT[a]`, inside the page. -/
def storeOut (m : Memory) (a : Nat) (v : Byte) : Except Fault Memory :=
  if a < pageSize then .ok (m.write a v) else .error (.outsideBuffer a)

/-! ### Fetching a token -/

/-- The known bytes from offset `a` on, at most `k` of them, up to the first unwritten one. -/
def knownBytes (m : Memory) (a : Nat) : Nat → List Byte
  | 0 => []
  | k + 1 =>
    match m.read a with
    | none => []
    | some b => b :: knownBytes m (a + 1) k

/-- The bytes the extractor may look at: at most the four of the longest fixed part, none at or past the declared length
(R66, R95). -/
def State.fetchBytes (s : State) : List Byte :=
  knownBytes s.inp s.srcPos.toNat (min 4 s.srcBudget.toNat)

/-- What a fetch finds at the source cursor. -/
inductive Fetched where
  /-- `src_rem = 0` (R154, R178) -/
  | endOfSource
  /-- a token whose fixed bytes are all present -/
  | token (i : Instr)
  /-- the stream ends inside the token's fixed bytes (R131, R179) -/
  | cutShort
  /-- a fixed byte that is present was never written (R255) -/
  | unwritten (offset : Nat)
deriving DecidableEq, Repr

/-- Fetch the token at the source cursor under the run's grammar (R26, R92, R170). -/
def State.fetch (s : State) : Fetched :=
  if s.srcBudget.toNat = 0 then .endOfSource
  else
    match decode s.algRun s.fetchBytes with
    | .token i _ => .token i
    | .needs k =>
      if s.srcBudget.toNat < k then .cutShort else .unwritten (s.srcPos.toNat + s.fetchBytes.length)

/-- The field latches after the extractor has split token `i`; fields that the token lacks keep their bits (R24; log
entry 2). -/
def latchFields (i : Instr) (l : TokenLatches) : TokenLatches :=
  match i with
  | .record rep span => { l with rep := rep, span := span }
  | .lit n => { l with tag := 0, n := n }
  | .fill m v => { l with tag := 0, n := 0, m := m, v := v }
  | .endPage => { l with tag := 0, n := 0, m := 0 }
  | .br1 nr len off => { l with tag := 1, nr := nr, len := len, off := off }
  | .br2 len off => { l with tag := 2, len := len, off := off }
  | .br3 nr len off => { l with tag := 3, nr := nr, len := len, off := off }

/-- The state in which token `i` executes: its fields are in the latches. -/
def State.latch (i : Instr) (s : State) : State := { s with latches := latchFields i s.latches }

/-! ### The back-reference validator -/

/-- `BackRefValid(off, len, w)`: not before the page start, and not the byte about to be written (R136). -/
def backRefValid (off len w : Nat) : Bool :=
  if w < off then false
  else if off = 0 && 0 < len then false
  else true

/-! ### The host's port -/

/-- The bytes an access is wide (R62). -/
def PortWidth.size : PortWidth → Nat
  | .byte => 1
  | .half => 2
  | .word => 4

/-- The width of the data of an access. -/
def PortData.width : PortData → PortWidth
  | .byte _ => .byte
  | .half _ => .half
  | .word _ => .word

/-- The bytes of the data of an access, byte `k` from bits `8k+7:8k` (R61). -/
def PortData.bytes : PortData → List Byte
  | .byte v => [v]
  | .half v => [v.extractLsb' 0 8, v.extractLsb' 8 8]
  | .word v => [v.extractLsb' 0 8, v.extractLsb' 8 8, v.extractLsb' 16 8, v.extractLsb' 24 8]

/-- What an offset of the port reaches (R29). -/
inductive PortPlace where
  | inp (a : Nat)
  | out (a : Nat)
  | ctrl
  | srcLen
  | status
  | dstCount
  | srcCount
  | reserved
deriving DecidableEq, Repr

/-- The register map (R29). -/
def portPlace (o : PortOffset) : PortPlace :=
  if o.toNat < 0x1000 then .inp o.toNat
  else if o.toNat < 0x2000 then .out (o.toNat - 0x1000)
  else if o.toNat = 0x2000 then .ctrl
  else if o.toNat = 0x2004 then .srcLen
  else if o.toNat = 0x2008 then .status
  else if o.toNat = 0x200C then .dstCount
  else if o.toNat = 0x2010 then .srcCount
  else .reserved

/-- The place is in one of the two buffers. -/
def PortPlace.isBuffer : PortPlace → Bool
  | .inp _ => true
  | .out _ => true
  | .ctrl => false
  | .srcLen => false
  | .status => false
  | .dstCount => false
  | .srcCount => false
  | .reserved => false

/-- Why an access is not admitted, if it is not (R62, R260); log entry 13 for the reserved offsets. -/
def State.portRefusal (s : State) (o : PortOffset) (w : PortWidth) : Option Refusal :=
  if o.toNat % w.size ≠ 0 then some .misalignedAccess
  else if (portPlace o).isBuffer then (if s.busy then some .bufferWhileBusy else none)
  else if w = .word then none
  else some .registerWidth

/-- Write consecutive bytes of a buffer from offset `a` on (R63). -/
def Memory.writeBytes (m : Memory) (a : Nat) : List Byte → Memory
  | [] => m
  | b :: bs => Memory.writeBytes (m.write a b) (a + 1) bs

/-- One byte as the host reads it, and the draws taken: an unwritten byte is a draw (R46), from the one sequence of
log entry 4. -/
def hostByte (m : Memory) (a draws : Nat) : Byte × Nat :=
  match m.read a with
  | some b => (b, draws)
  | none => (Config.drawByte draws, draws + 1)

/-- A buffer read of a width, its bytes at consecutive offsets in little-endian order, and the draws taken (R61, R63). -/
def hostBufferRead (m : Memory) (a : Nat) (w : PortWidth) (draws : Nat) : PortData × Nat :=
  match w with
  | .byte =>
    let r0 := hostByte m a draws
    (.byte r0.1, r0.2)
  | .half =>
    let r0 := hostByte m a draws
    let r1 := hostByte m (a + 1) r0.2
    (.half (r1.1 ++ r0.1), r1.2)
  | .word =>
    let r0 := hostByte m a draws
    let r1 := hostByte m (a + 1) r0.2
    let r2 := hostByte m (a + 2) r1.2
    let r3 := hostByte m (a + 3) r2.2
    (.word (r3.1 ++ r2.1 ++ r1.1 ++ r0.1), r3.2)

/-- A count register as the host reads it: exact while not BUSY, a draw in bits 12:0 while BUSY (R38, R39, R47),
from the one sequence of log entry 4. -/
def State.hostCount (s : State) (c : Cursor) : Word × Nat :=
  if s.busy then (countWord (Config.drawCount s.draws), s.draws + 1) else (countWord c, s.draws)

end Sys2Proof.Machine
end

