-- ==== Sys2Proof/Machine/Ops.lean ====
section
/-! DEFINITION. The named operations the tokens and the driver are built from: the budget checks, the byte transfers and the
check-then-commit discipline (spec/40_bounded_copy.md), the end of a run, a fault's entry among its two ways
(spec/43_page_driver.md R205, R206; spec/60_exceptions.md R221, R222), and the START, CLEAR and reset actions. -/

namespace Sys2Proof.Machine

/-- What a step answers. -/
abbrev Outcome := Host.Outcome State Fault Refusal

/-! ### The end of a run -/

/-- `finish_ok()`: the successful end of a run (R205). -/
def finishOk (s : State) : State :=
  { s with dstCount := s.dstPos, srcCount := s.srcPos, runState := .doneOk, errCode := 0 }

/-- `raise Fault(k)`, that is `finish_err(k)`: the block's exception entry. It records the kind and the two counts and halts
the engine; there is no vector, no handler and no saved register beside these (R206, R221 to R223, R226). -/
def raiseFault (k : FaultKind) (s : State) : State :=
  { s with dstCount := s.dstPos, srcCount := s.srcPos, runState := .doneErr, errCode := k.code }

/-- CLEAR: the host's way back from DONE_OK or DONE_ERR to IDLE; there is no return from a fault (R34, R227). -/
def clearRun (s : State) : State := { s with runState := .idle, errCode := 0 }

/-- START (R31, R201). An illegal `SRC_LEN` ends at once with `BadSourceLength` and takes no engine step. -/
def startRun (s : State) : State :=
  if pageSize < s.srcLen.toNat then
    { s with dstCount := 0, srcCount := 0, runState := .doneErr, errCode := FaultKind.code .badSourceLength }
  else
    { s with
      dstCount := 0, srcCount := 0, errCode := 0, runState := .run,
      algRun := s.alg, srcLenRun := s.srcLen, srcPos := 0, dstPos := 0,
      srcBudget := s.srcLen, dstBudget := BitVec.ofNat 13 pageSize }

/-- Reset at any time: the spec's state as R44 says; the parameter, the turns still to come and the record of the port stay
(R250 to R252; log entry 6). -/
def resetBlock (s : State) : State :=
  { State.reset with v1DstCheck := s.v1DstCheck, turns := s.turns, reads := s.reads, draws := s.draws }

/-! ### Checks -/

/-- One check of a token's check phase. Counts are cumulative from the token's start (R131, R132, R136, R141). -/
inductive Check where
  /-- `SrcNeed(k, kind)` -/
  | src (k : Nat) (kind : FaultKind)
  /-- `DstNeed(k)` -/
  | dst (k : Nat)
  /-- `BackRefCheck(off, len, w)` -/
  | backRef (off len w : Nat)
deriving DecidableEq, Repr

/-- The fault a check raises, if it fails: compare first, subtract later (R130 to R132, R136). -/
def Check.failure (s : State) : Check → Option FaultKind
  | .src k kind => if s.srcBudget.toNat < k then some kind else none
  | .dst k => if s.dstBudget.toNat < k then some .destinationOverrun else none
  | .backRef off len w => if backRefValid off len w then none else some .invalidBackReference

/-- The fault of the first check that fails, in the order listed (R140, R224). -/
def firstFailure (s : State) : List Check → Option FaultKind
  | [] => none
  | c :: cs =>
    match c.failure s with
    | some k => some k
    | none => firstFailure s cs

/-! ### Byte transfers -/

/-- `Consume(k)`: the source cursor advances and its budget drops (R134). -/
def consume (k : Nat) (s : State) : State :=
  { s with srcPos := s.srcPos + BitVec.ofNat 13 k, srcBudget := s.srcBudget - BitVec.ofNat 13 k }

/-- The one loop through which every byte of `OUT` is written (R135): bytes `i .. i+k-1` of a copy to `base`, each read
just before it is written, so that a byte sees all earlier ones (R71, R138). -/
def writeRun (rd : Nat → Memory → Except Fault Byte) (base : Nat) : Nat → Nat → Memory → Except Fault Memory
  | _, 0, m => .ok m
  | i, k + 1, m =>
    match rd i m with
    | .error f => .error f
    | .ok b =>
      match storeOut m (base + i) b with
      | .error f => .error f
      | .ok m' => writeRun rd base (i + 1) k m'

/-- Write `k` bytes at the destination cursor, which advances while its budget drops (R133, R134). -/
def writeDest (rd : Nat → Memory → Except Fault Byte) (k : Nat) (s : State) : Except Fault State :=
  match writeRun rd s.dstPos.toNat 0 k s.out with
  | .error f => .error f
  | .ok m =>
    .ok { s with out := m, dstPos := s.dstPos + BitVec.ofNat 13 k, dstBudget := s.dstBudget - BitVec.ofNat 13 k }

/-- `CopyLit(a, k)`: both cursors advance (R133, R134). -/
def copyLit (a k : Nat) (s : State) : Except Fault State :=
  writeDest (fun i _ => readIn s.inp (a + i)) k (consume k s)

/-- `Fill(v, k)` (R134). -/
def fillRun (v : Byte) (k : Nat) (s : State) : Except Fault State := writeDest (fun _ _ => .ok v) k s

/-- `CopyBack(off, k)`: byte-serial and forward (R134, R138). -/
def copyBack (off k : Nat) (s : State) : Except Fault State :=
  writeDest (fun i m => readOut m (s.dstPos.toNat - off + i)) k s

/-- `reps` whole repetitions of the V1 span of `span` bytes at `IN[a]`; only the destination advances, since the span is
read once and replayed (R133, R150; log entry 14). -/
def replaySpan (a span reps : Nat) (s : State) : Except Fault State :=
  writeDest (fun i _ => readIn s.inp (a + i % span)) (reps * span) s

/-! ### Check, then commit -/

/-- A token: its checks in order; the first that fails raises its fault and nothing of the token is committed; else the
commit runs (R140, R221). -/
def runToken (checks : List Check) (commit : State → Except Fault State) (s : State) : Outcome :=
  match firstFailure s checks with
  | some k => .next (raiseFault k s)
  | none =>
    match commit s with
    | .ok t => .next t
    | .error f => .fault f

/-- The back-reference token with a header of `hdr` bytes and a literal prefix of `nr`: shapes 1 and 3 (R174, R176, R177). The
offset is measured after the prefix. -/
def runBackRef (hdr nr len off : Nat) (s : State) : Outcome :=
  runToken
    [.src hdr .sourceExhausted, .src (hdr + nr) .sourceOverrun, .dst nr,
      .backRef off len (s.dstPos.toNat + nr), .dst (nr + len)]
    (fun s => (copyLit (s.srcPos.toNat + hdr) nr (consume hdr s)).bind (copyBack off len)) s

end Sys2Proof.Machine
end

