-- ==== Sys2Proof/Machine/V1.lean ====
section
/-! DEFINITION. The V1 (EXEPACK:1) token: the record (spec/41_v1_exepack1.md). -/

namespace Sys2Proof.Machine

/-- A record that fits: consume the header and the span, write the span `rep` times (R150). -/
def commitRecord (rep span : Nat) (s : State) : Except Fault State :=
  replaySpan (s.srcPos.toNat + 4) span rep (consume (4 + span) s)

/-- A record that does not fit, under `per_repetition`: the whole repetitions that fit are written, then the overrun is raised
with the source cursor at the record's start (R152, R222). -/
def overrunRecord (span : Nat) (s : State) : Except Fault State :=
  match replaySpan (s.srcPos.toNat + 4) span (s.dstBudget.toNat / span) s with
  | .error f => .error f
  | .ok t => .ok (raiseFault .destinationOverrun t)

/-- `REC` (R150 to R156). The product is exact (R155). -/
def execRecord (rep span : BitVec 16) (s : State) : Outcome :=
  match s.v1DstCheck with
  | .wholeRecord =>
    runToken
      [.src 4 .sourceExhausted, .src (4 + span.toNat) .sourceOverrun, .dst (rep.toNat * span.toNat)]
      (commitRecord rep.toNat span.toNat) s
  | .perRepetition =>
    runToken
      [.src 4 .sourceExhausted, .src (4 + span.toNat) .sourceOverrun]
      (fun s =>
        if span.toNat = 0 ∨ rep.toNat ≤ s.dstBudget.toNat / span.toNat then commitRecord rep.toNat span.toNat s
        else overrunRecord span.toNat s) s

end Sys2Proof.Machine
end

