-- ==== Sys2Proof/Machine/V2.lean ====
section
/-! DEFINITION. The V2 (EXEPACK:2) tokens (spec/42_v2_exepack2.md), each its checks in the rule's order and its commit. -/

namespace Sys2Proof.Machine

/-- `LIT` (R171). -/
def execLit (n : BitVec 6) (s : State) : Outcome :=
  runToken
    [.src (1 + n.toNat) .sourceOverrun, .dst n.toNat]
    (fun s => copyLit (s.srcPos.toNat + 1) n.toNat (consume 1 s)) s

/-- `FILL` (R172). -/
def execFill (m v : BitVec 8) (s : State) : Outcome :=
  runToken
    [.src 2 .sourceExhausted, .src 3 .sourceExhausted, .dst m.toNat]
    (fun s => fillRun v m.toNat (consume 3 s)) s

/-- `END` (R172, R173): the successful end of a V2 run. -/
def execEndPage (s : State) : Outcome :=
  runToken [.src 2 .sourceExhausted] (fun s => .ok (finishOk (consume 2 s))) s

/-- `BR1` (R174, R177). -/
def execBr1 (nr : BitVec 4) (len : BitVec 6) (off : BitVec 12) (s : State) : Outcome :=
  runBackRef 2 nr.toNat len.toNat off.toNat s

/-- `BR2` (R175): no literal prefix. -/
def execBr2 (len : BitVec 6) (off : BitVec 12) (s : State) : Outcome :=
  runToken
    [.src 2 .sourceExhausted, .backRef off.toNat len.toNat s.dstPos.toNat, .dst len.toNat]
    (fun s => copyBack off.toNat len.toNat (consume 2 s)) s

/-- `BR3` (R176, R177, R180): the length has no bias and may be 0. -/
def execBr3 (nr : BitVec 4) (len : BitVec 6) (off : BitVec 12) (s : State) : Outcome :=
  runBackRef 3 nr.toNat len.toNat off.toNat s

end Sys2Proof.Machine
end

