-- ==== Sys2Proof/Machine/Dispatch.lean ====
section
/-! DEFINITION. One arm per token: its meaning (spec/opcode_table.json). -/

namespace Sys2Proof.Machine

def exec (i : Instr) (s : State) : Host.Outcome State Fault Refusal :=
  match i with
  | .record rep span => Sys2Proof.Machine.execRecord rep span s
  | .lit n => Sys2Proof.Machine.execLit n s
  | .fill m v => Sys2Proof.Machine.execFill m v s
  | .endPage => Sys2Proof.Machine.execEndPage s
  | .br1 nr len off => Sys2Proof.Machine.execBr1 nr len off s
  | .br2 len off => Sys2Proof.Machine.execBr2 len off s
  | .br3 nr len off => Sys2Proof.Machine.execBr3 nr len off s

end Sys2Proof.Machine
end

