-- ==== Sys2Proof/Machine/Engine.lean ====
section
/-! DEFINITION. One engine step (spec/43_page_driver.md R203, R204), and the page that a program is loaded as
(spec/70_reset_and_hazards.md R253). -/

namespace Sys2Proof.Machine

/-- What a fetch leads to: the clean end of a V1 run (R154), the missing end marker of a V2 run (R178), a stream that ends
inside a token (R131, R179), the model's stop at an unwritten byte (R255), or the token's own meaning. -/
def runFetched (f : Fetched) (s : State) : Outcome :=
  match f with
  | .endOfSource =>
    match s.algRun with
    | .v1 => .next (finishOk s)
    | .v2 => .next (raiseFault .sourceExhausted s)
  | .cutShort => .next (raiseFault .sourceExhausted s)
  | .unwritten a => .fault (.unwrittenInput a)
  | .token i => exec i (s.latch i)

/-- `EngineStep()`, enabled exactly while BUSY; else the engine's turn changes nothing (R203, R227). -/
def engineStep (s : State) : Outcome :=
  match s.runState with
  | .run => runFetched s.fetch s
  | .idle => .next s
  | .doneOk => .next s
  | .doneErr => .next s

/-- `k` cells of a page from offset `a` on that holds a table word and zeros after it. -/
def tablePage (nbits w : Nat) : Nat → Nat → Memory
  | _, 0 => []
  | a, k + 1 => (a, tableByte nbits w a) :: tablePage nbits w (a + 1) k

/-- The state after the host has written a whole page that begins with a table word, `SRC_LEN = 4096` and `CTRL` with START,
with no turn but the engine's to come (R201, R253; log entry 12). -/
def loadTableWord (s : State) (nbits w : Nat) : State :=
  startRun
    { s with
      alg := tableGrammar nbits, srcLen := BitVec.ofNat 13 pageSize, inp := tablePage nbits w 0 pageSize,
      turns := [] }

end Sys2Proof.Machine
end

