-- ==== Sys2Proof/Machine/HostPort.lean ====
section
/-! DEFINITION. The host's moves at the port (spec/10_state.md R29 to R43, R46, R47; spec/20_memory.md R61 to R65). Each is one
atomic step (R63, R72). -/

namespace Sys2Proof.Machine

/-- A `CTRL` write while not BUSY: ALG and IRQ_EN, then CLEAR, then START with the ALG just written (R30, R31, R34). -/
def performCtrl (v : Word) (s : State) : State :=
  let s1 := { s with alg := algOfBit (v.getLsbD 1), irqEn := v.getLsbD 2 }
  let s2 := if v.getLsbD 3 then clearRun s1 else s1
  if v.getLsbD 0 then startRun s2 else s2

/-- The host writes `CTRL`; ignored while BUSY (R30, R35). -/
def writeCtrl (v : Word) (s : State) : State := if s.busy then s else performCtrl v s

/-- The host writes `SRC_LEN`: bits 12:0 are stored as written, illegal values too; ignored while BUSY (R35, R36). -/
def writeSrcLen (v : Word) (s : State) : State := if s.busy then s else { s with srcLen := v.setWidth 13 }

/-- What a read returns, and the draws taken (R30, R36 to R40, R46, R47). -/
def portRead (p : PortPlace) (w : PortWidth) (s : State) : PortData × Nat :=
  match p with
  | .inp a => hostBufferRead s.inp a w s.draws
  | .out a => hostBufferRead s.out a w s.draws
  | .ctrl => (.word s.ctrlWord, s.draws)
  | .srcLen => (.word s.srcLenWord, s.draws)
  | .status => (.word s.statusWord, s.draws)
  | .dstCount => (.word (s.hostCount s.dstCount).1, (s.hostCount s.dstCount).2)
  | .srcCount => (.word (s.hostCount s.srcCount).1, (s.hostCount s.srcCount).2)
  | .reserved => (.word 0, s.draws)

/-- What an admitted write does at its place: bytes of a buffer (R63), or a register. Writes to the read-only registers and
to reserved offsets are ignored (R37 to R40); a register is only written whole (`State.portRefusal`). -/
def portWrite (p : PortPlace) (d : PortData) (s : State) : State :=
  match p with
  | .inp a => { s with inp := s.inp.writeBytes a d.bytes }
  | .out a => { s with out := s.out.writeBytes a d.bytes }
  | .ctrl =>
    match d with
    | .word v => writeCtrl v s
    | .byte _ => s
    | .half _ => s
  | .srcLen =>
    match d with
    | .word v => writeSrcLen v s
    | .byte _ => s
    | .half _ => s
  | .status => s
  | .dstCount => s
  | .srcCount => s
  | .reserved => s

/-- A host write. -/
def hostWrite (o : PortOffset) (d : PortData) (s : State) : Outcome :=
  match s.portRefusal o d.width with
  | some r => .refused r
  | none => .next (portWrite (portPlace o) d s)

/-- A host read: nothing changes but the model's record of what the port returned (R65). -/
def hostRead (o : PortOffset) (w : PortWidth) (s : State) : Outcome :=
  match s.portRefusal o w with
  | some r => .refused r
  | none =>
    .next { s with reads := (portRead (portPlace o) w s).1 :: s.reads, draws := (portRead (portPlace o) w s).2 }

/-- One move of the outside world. -/
def hostStep (a : HostAction) (s : State) : Outcome :=
  match a with
  | .write o d => hostWrite o d s
  | .read o w => hostRead o w s
  | .reset => .next (resetBlock s)

end Sys2Proof.Machine
end

