-- ==== Sys2Proof/Machine/Step.lean ====
section
/-! DEFINITION. One step of the machine: the next turn is the engine's or the outside world's (spec/70_reset_and_hazards.md R262). -/

namespace Sys2Proof.Machine

/-- The next turn is taken from the list; when the list is empty the engine has the turn (R203, R262; log entry 1). -/
def step (s : State) : Host.Outcome State Fault Refusal :=
  match s.turns with
  | [] => engineStep s
  | .engine :: ts => engineStep { s with turns := ts }
  | .host a :: ts => hostStep a { s with turns := ts }

/-- The state in which the very next step runs the instruction of a table word (log entry 12). -/
def State.withFetchWord (s : State) (nbits w : Nat) : State := loadTableWord s nbits w

end Sys2Proof.Machine
end

