-- ==== Sys2Proof/Machine/Platform.lean ====
section
/-! DEFINITION. A platform of any number of independent instances (spec/60_exceptions.md R233), each port at a base the platform
chooses (spec/20_memory.md R69). -/

namespace Sys2Proof.Machine

/-- The instances, each with its own buffers, registers and engine (R233). They have no identifier register.
DESIGN CHOICE, unsafe (log entries 4, 17): all of them draw from the same opaque sequences, each by its own count, so instances with
equal counts draw equal values; whether draws of different instances are independent the spec leaves open (R46, R47, R233). -/
structure Platform where
  instances : List State
deriving DecidableEq, Repr

/-- Instance `k` takes a step; no signal passes between instances (R233). -/
def Platform.stepInstance (k : Nat) (p : Platform) : Host.Outcome Platform Fault Refusal :=
  match p.instances[k]? with
  | none => .next p
  | some s =>
    match step s with
    | .next t => .next { p with instances := p.instances.set k t }
    | .fault f => .fault f
    | .refused r => .refused r

/-- The offset in instance `k`'s port that a system address reaches, if it reaches it (R29, R69). -/
def portOffsetAt (k a : Nat) : Option PortOffset :=
  if Config.expkBase k ≤ a ∧ a < Config.expkBase k + 2 ^ 14 then some (BitVec.ofNat 14 (a - Config.expkBase k)) else none

end Sys2Proof.Machine
end

