-- ==== Sys2Proof/Safety.lean ====
section
/-! DEFINITION. What the claims call a good state: the invariant of the registers, the status and the buffers, and the terms in
which the claims say what a token leaves. -/

namespace Sys2Proof.Machine

/-- The cursors and the budgets agree, and the run's length is legal (R21, R23). -/
def State.cursorsAgree (s : State) : Prop :=
  s.srcLenRun.toNat ≤ pageSize ∧ s.srcPos.toNat + s.srcBudget.toNat = s.srcLenRun.toNat ∧
    s.dstPos.toNat + s.dstBudget.toNat = pageSize

/-- Every byte of a buffer below an offset is known (R46). -/
def Memory.knownBelow (m : Memory) (n : Nat) : Prop := ∀ a, a < n → (m.read a).isSome = true

/-- `STATUS` is one of the rows of R25, and `ERRCODE` is 0 without `ERR`, 1..5 with it; 6 and 7 are never written (R37, R220). -/
def State.statusLegal (s : State) : Prop :=
  (s.runState ≠ .doneErr → s.errCode = 0) ∧ (s.runState = .doneErr → 1 ≤ s.errCode.toNat ∧ s.errCode.toNat ≤ 5)

/-- The counts lie in 0..4096, and the bytes the last run reports as written are known (R38, R39, R209). -/
def State.countsLegal (s : State) : Prop :=
  s.dstCount.toNat ≤ pageSize ∧ s.srcCount.toNat ≤ pageSize ∧ s.out.knownBelow s.dstCount.toNat

/-- What every step keeps. -/
structure State.Inv (s : State) : Prop where
  /-- R21, R23: while a run is in progress -/
  cursors : s.runState = .run → s.cursorsAgree
  /-- R135, R137: the run has written every byte below the destination cursor -/
  written : s.runState = .run → s.out.knownBelow s.dstPos.toNat
  /-- R25, R37, R220 -/
  status : s.statusLegal
  /-- R38, R39, R209 -/
  counts : s.countsLegal
  /-- the buffers' canonical form -/
  inpWf : s.inp.wf
  outWf : s.out.wf

/-- The host has written every byte the run may read (R255). -/
def State.inputReady (s : State) : Prop := s.inp.knownBelow s.srcLenRun.toNat

/-- What a token that commits leaves: the cursors advanced and the budgets dropped by the same amounts, `OUT` as given,
everything else as before (R23, R96, R133). -/
def State.afterToken (s : State) (src dst : Nat) (m : Memory) : State :=
  { s with
    srcPos := BitVec.ofNat 13 (s.srcPos.toNat + src), srcBudget := BitVec.ofNat 13 (s.srcBudget.toNat - src),
    dstPos := BitVec.ofNat 13 (s.dstPos.toNat + dst), dstBudget := BitVec.ofNat 13 (s.dstBudget.toNat - dst),
    out := m }

/-- What a fault leaves: DONE_ERR, the code, and the two counts; everything else as before (R206, R222, R223). -/
def State.failedWith (s : State) (code : BitVec 3) : State :=
  { s with runState := .doneErr, errCode := code, dstCount := s.dstPos, srcCount := s.srcPos }

/-- `OUT` after a token that wrote `k` bytes at the destination cursor: every other byte reads as before (R42, R135). -/
def State.keepsOutside (s : State) (k : Nat) (m : Memory) : Prop :=
  ∀ a, a < s.dstPos.toNat ∨ s.dstPos.toNat + k ≤ a → m.read a = s.out.read a

/-- The literal bytes of a token, `k` of them from `IN[a]` on, are known. -/
def State.literalsKnown (s : State) (a k : Nat) : Prop := ∀ i, i < k → (s.inp.read (a + i)).isSome = true

/-- A token whose literal bytes are read: its checks pass and it writes them, or, of a V1 record under `per_repetition`, at least
one whole repetition of its span (R150, R152, R171, R174, R176). -/
def State.readsLiterals (s : State) (i : Instr) : Prop :=
  i.length ≤ s.srcBudget.toNat ∧
    match i with
    | .record rep span =>
      0 < rep.toNat ∧
        (rep.toNat * span.toNat ≤ s.dstBudget.toNat ∨ (s.v1DstCheck = .perRepetition ∧ span.toNat ≤ s.dstBudget.toNat))
    | .lit n => n.toNat ≤ s.dstBudget.toNat
    | .fill _ _ => False
    | .endPage => False
    | .br1 nr len off =>
      nr.toNat + len.toNat ≤ s.dstBudget.toNat ∧ off.toNat ≤ s.dstPos.toNat + nr.toNat ∧
        (off.toNat = 0 → len.toNat = 0)
    | .br2 _ _ => False
    | .br3 nr len off =>
      nr.toNat + len.toNat ≤ s.dstBudget.toNat ∧ off.toNat ≤ s.dstPos.toNat + nr.toNat ∧
        (off.toNat = 0 → len.toNat = 0)

/-- The two nested loops of R150 as written: each repetition copies the span byte by byte, then the destination moves past
it. -/
def replayLoop (inp : Memory) (a span base : Nat) : Nat → Memory → Except Fault Memory
  | 0, m => .ok m
  | r + 1, m =>
    match writeRun (fun i _ => readIn inp (a + i)) base 0 span m with
    | .error f => .error f
    | .ok m' => replayLoop inp a span (base + span) r m'

/-- Two answers report the same result: the same stop, or the same status and, once the run has ended, the same counts and
the same decoded bytes (R45). -/
def sameResult : Outcome → Outcome → Prop
  | .next t, .next u =>
    t.runState = u.runState ∧ t.errCode = u.errCode ∧
      (t.busy = false → t.dstCount = u.dstCount ∧ t.srcCount = u.srcCount ∧
        ∀ a, a < t.dstCount.toNat → t.out.read a = u.out.read a)
  | .next _, .fault _ => False
  | .next _, .refused _ => False
  | .fault f, .fault g => f = g
  | .fault _, .next _ => False
  | .fault _, .refused _ => False
  | .refused r, .refused q => r = q
  | .refused _, .next _ => False
  | .refused _, .fault _ => False

end Sys2Proof.Machine
end

