-- ==== Sys2Proof/Certificates/Slice0/Obligations.lean ====
section
/-! DEFINITION. The statements for the provers: what the tokens, the engine, the host's moves, reset and the whole machine do, from
the numbered rules of the spec. -/

open Sys2Proof
open Sys2Proof.Machine

/-! ### Encoding -/

/-- Words written out from R97 to R103 and the extractor table of 95_test_vectors.md section 2 decode to their tokens (the bit
positions inside shapes 1 to 3 are the spec's own, I5; log entry 9). -/
def Obligations.SampleWordsDecode : Prop :=
  decode .v1 [0x02, 0x00, 0x03, 0x00, 0xAA] = .token (.record 2 3) [0xAA] ∧
  decode .v2 [0xFC, 0x01] = .token (.lit 63) [0x01] ∧
  decode .v2 [0x00, 0x03, 0x5A] = .token (.fill 3 0x5A) [] ∧
  decode .v2 [0x00, 0x00, 0xFF] = .token .endPage [0xFF] ∧
  decode .v2 [0x85, 0x01, 0x43] = .token (.br1 1 3 3) [0x43] ∧
  decode .v2 [0x1A, 0x00] = .token (.br2 5 1) [] ∧
  decode .v2 [0x43, 0x0A, 0x80] = .token (.br3 0 41 2048) []

/-- The decode map and the field assembly, in arithmetic: `a[hi:lo]` is a quotient and a remainder (R92, R97 to R103, R105). The
bit positions inside shapes 1 to 3 are those the spec supplies itself (93_implementation_defined.md I5; log entry 9). -/
def Obligations.FieldsAreAssembledAsTheFormatsSay : Prop :=
  ∀ (b0 b1 b2 b3 : Byte) (rest : List Byte),
    (∃ rep span, decode .v1 (b0 :: b1 :: b2 :: b3 :: rest) = .token (.record rep span) rest ∧
      rep.toNat = b0.toNat + 256 * b1.toNat ∧ span.toNat = b2.toNat + 256 * b3.toNat) ∧
    (b0.toNat % 4 = 0 → b0.toNat ≠ 0 →
      ∃ n, decode .v2 (b0 :: rest) = .token (.lit n) rest ∧ n.toNat = b0.toNat / 4) ∧
    (b0.toNat = 0 → b1.toNat ≠ 0 → decode .v2 (b0 :: b1 :: b2 :: rest) = .token (.fill b1 b2) rest) ∧
    (b0.toNat = 0 → b1.toNat = 0 → decode .v2 (b0 :: b1 :: rest) = .token .endPage rest) ∧
    (b0.toNat % 4 = 1 →
      ∃ nr len off, decode .v2 (b0 :: b1 :: rest) = .token (.br1 nr len off) rest ∧
        nr.toNat = b0.toNat / 4 % 4 ∧ len.toNat = b0.toNat / 16 % 8 + 3 ∧ off.toNat = 2 * b1.toNat + b0.toNat / 128) ∧
    (b0.toNat % 4 = 2 →
      ∃ len off, decode .v2 (b0 :: b1 :: rest) = .token (.br2 len off) rest ∧
        len.toNat = b0.toNat / 4 % 4 + 3 ∧ off.toNat = 16 * b1.toNat + b0.toNat / 16) ∧
    (b0.toNat % 4 = 3 →
      ∃ nr len off, decode .v2 (b0 :: b1 :: b2 :: rest) = .token (.br3 nr len off) rest ∧
        nr.toNat = b0.toNat / 4 % 16 ∧ len.toNat = 4 * (b1.toNat % 16) + b0.toNat / 64 ∧
        off.toNat = 16 * b2.toNat + b1.toNat / 16)

/-- The encoder's bytes, in arithmetic (R110). The bit positions inside shapes 1 to 3 are those the spec supplies itself
(93_implementation_defined.md I5, D13; log entry 9, PRESUMED). -/
def Obligations.EncodingFollowsTheNotation : Prop :=
  (∀ rep span : BitVec 16, (encode (.record rep span)).map BitVec.toNat =
    [rep.toNat % 256, rep.toNat / 256, span.toNat % 256, span.toNat / 256]) ∧
  (∀ n : BitVec 6, (encode (.lit n)).map BitVec.toNat = [4 * n.toNat]) ∧
  (∀ m v : BitVec 8, (encode (.fill m v)).map BitVec.toNat = [0, m.toNat, v.toNat]) ∧
  (encode .endPage).map BitVec.toNat = [0, 0] ∧
  (∀ nr len off, (Instr.br1 nr len off).wf = true → (encode (.br1 nr len off)).map BitVec.toNat =
    [128 * (off.toNat % 2) + 16 * (len.toNat - 3) + 4 * nr.toNat + 1, off.toNat / 2]) ∧
  (∀ len off, (Instr.br2 len off).wf = true → (encode (.br2 len off)).map BitVec.toNat =
    [16 * (off.toNat % 16) + 4 * (len.toNat - 3) + 2, off.toNat / 16]) ∧
  (∀ nr len off, (encode (.br3 nr len off)).map BitVec.toNat =
    [64 * (len.toNat % 4) + 4 * nr.toNat + 3, 16 * (off.toNat % 16) + len.toNat / 4, off.toNat / 16])

/-- Decoding an encoded well-formed token gives the token back and leaves its literal bytes and whatever follows (R109, R110):
no bit of an encoding is dropped, for any operands. -/
def Obligations.DecodeOfEncodeGivesTheToken : Prop :=
  ∀ (i : Instr) (data rest : List Byte), i.wf = true →
    decode i.grammar (encodeToken i data ++ rest) = .token i (data ++ rest)

/-- The other direction: what decodes to a token is that token's encoding, so each stream has one reading (R105, R110). -/
def Obligations.EncodeOfDecodeGivesTheBytes : Prop :=
  ∀ (g : Grammar) (bs rest : List Byte) (i : Instr), decode g bs = .token i rest →
    i.wf = true ∧ i.grammar = g ∧ bs = encode i ++ rest

/-- No byte sequence is illegal: it decodes to a token, or some further bytes make it one (R106). -/
def Obligations.EveryByteSequenceIsATokenOrItsBeginning : Prop :=
  ∀ (g : Grammar) (bs : List Byte),
    (∃ i rest, decode g bs = .token i rest) ∨
      (bs.length < 4 ∧ ∃ k, decode g bs = .needs k ∧ bs.length < k ∧
        ∃ more i, bs.length + more.length = k ∧ decode g (bs ++ more) = .token i [])

/-! ### The tokens: what each writes, when nothing fails -/

/-- `REC` writes its span `rep` times, consumes header and span, and changes nothing else (R150, R153); under both values of
`P_V1_DST_CHECK`. -/
def Obligations.RecordReplicatesItsSpan : Prop :=
  ∀ (rep span : BitVec 16) (s : State), s.cursorsAgree → 4 + span.toNat ≤ s.srcBudget.toNat →
    rep.toNat * span.toNat ≤ s.dstBudget.toNat →
    (rep.toNat ≠ 0 → s.literalsKnown (s.srcPos.toNat + 4) span.toNat) →
    ∃ m, exec (.record rep span) s = .next (s.afterToken (4 + span.toNat) (rep.toNat * span.toNat) m) ∧
      (∀ r j, r < rep.toNat → j < span.toNat →
        m.read (s.dstPos.toNat + r * span.toNat + j) = s.inp.read (s.srcPos.toNat + 4 + j)) ∧
      s.keepsOutside (rep.toNat * span.toNat) m

/-- `LIT` copies its literal bytes (R171). -/
def Obligations.LiteralRunCopiesItsBytes : Prop :=
  ∀ (n : BitVec 6) (s : State), s.cursorsAgree → 1 + n.toNat ≤ s.srcBudget.toNat → n.toNat ≤ s.dstBudget.toNat →
    s.literalsKnown (s.srcPos.toNat + 1) n.toNat →
    ∃ m, exec (.lit n) s = .next (s.afterToken (1 + n.toNat) n.toNat m) ∧
      (∀ j, j < n.toNat → m.read (s.dstPos.toNat + j) = s.inp.read (s.srcPos.toNat + 1 + j)) ∧
      s.keepsOutside n.toNat m

/-- `FILL` writes `m` copies of `v` (R172). -/
def Obligations.FillWritesCopiesOfItsByte : Prop :=
  ∀ (m v : BitVec 8) (s : State), s.cursorsAgree → 3 ≤ s.srcBudget.toNat → m.toNat ≤ s.dstBudget.toNat →
    ∃ o, exec (.fill m v) s = .next (s.afterToken 3 m.toNat o) ∧
      (∀ j, j < m.toNat → o.read (s.dstPos.toNat + j) = some v) ∧ s.keepsOutside m.toNat o

/-- `END` is `00 00`; it consumes its two bytes and ends the run with success, whatever follows it and wherever the destination
cursor stands: the counts are the cursors after it (R173, R205). -/
def Obligations.EndMarkerEndsTheRun : Prop :=
  (∀ rest : List Byte, decode .v2 (0 :: 0 :: rest) = .token .endPage rest) ∧
  ∀ s : State, 2 ≤ s.srcBudget.toNat →
    exec .endPage s = .next
      { s with
        srcPos := BitVec.ofNat 13 (s.srcPos.toNat + 2), srcBudget := BitVec.ofNat 13 (s.srcBudget.toNat - 2),
        dstCount := s.dstPos, srcCount := BitVec.ofNat 13 (s.srcPos.toNat + 2),
        runState := .doneOk, errCode := 0 }

/-- `BR1` writes its literal prefix, then copies `len` bytes from `off` behind the cursor after the prefix (R174, R177). Where
`off` is 0 or too large, `BackReferenceShapeOneFaults` says what happens. That the copy is byte-serial, where `off < len`, is the
spec's own (R138, I6, D12; log entry 10, PRESUMED). -/
def Obligations.ShapeOneCopiesPrefixThenBack : Prop :=
  ∀ (nr : BitVec 4) (len : BitVec 6) (off : BitVec 12) (s : State), s.cursorsAgree →
    2 + nr.toNat ≤ s.srcBudget.toNat → nr.toNat + len.toNat ≤ s.dstBudget.toNat →
    off.toNat ≤ s.dstPos.toNat + nr.toNat → off.toNat ≠ 0 →
    s.literalsKnown (s.srcPos.toNat + 2) nr.toNat → s.out.knownBelow s.dstPos.toNat →
    ∃ m, exec (.br1 nr len off) s = .next (s.afterToken (2 + nr.toNat) (nr.toNat + len.toNat) m) ∧
      (∀ j, j < nr.toNat → m.read (s.dstPos.toNat + j) = s.inp.read (s.srcPos.toNat + 2 + j)) ∧
      (∀ j, j < len.toNat →
        m.read (s.dstPos.toNat + nr.toNat + j) = m.read (s.dstPos.toNat + nr.toNat - off.toNat + j)) ∧
      s.keepsOutside (nr.toNat + len.toNat) m

/-- `BR2` copies `len` bytes from `off` behind the cursor; byte `j` is byte `j mod off` of the last `off` bytes before the
cursor (R138, R175). That the copy is byte-serial is the spec's own (I6, D12; log entry 10). -/
def Obligations.ShapeTwoCopiesBack : Prop :=
  ∀ (len : BitVec 6) (off : BitVec 12) (s : State), s.cursorsAgree →
    2 ≤ s.srcBudget.toNat → len.toNat ≤ s.dstBudget.toNat → off.toNat ≤ s.dstPos.toNat → off.toNat ≠ 0 →
    s.out.knownBelow s.dstPos.toNat →
    ∃ m, exec (.br2 len off) s = .next (s.afterToken 2 len.toNat m) ∧
      (∀ j, j < len.toNat →
        m.read (s.dstPos.toNat + j) = s.out.read (s.dstPos.toNat - off.toNat + j % off.toNat)) ∧
      s.keepsOutside len.toNat m

/-- `BR3` writes its literal prefix, then copies `len` bytes from `off` behind the cursor after the prefix; with `len = 0` it is
the prefix alone, and `off = 0` is then admitted (R176, R177, R180). That the copy is byte-serial, where `off < len`, is the
spec's own (R138, I6, D12; log entry 10, PRESUMED). -/
def Obligations.ShapeThreeCopiesPrefixThenBack : Prop :=
  ∀ (nr : BitVec 4) (len : BitVec 6) (off : BitVec 12) (s : State), s.cursorsAgree →
    3 + nr.toNat ≤ s.srcBudget.toNat → nr.toNat + len.toNat ≤ s.dstBudget.toNat →
    off.toNat ≤ s.dstPos.toNat + nr.toNat → (off.toNat = 0 → len.toNat = 0) →
    s.literalsKnown (s.srcPos.toNat + 3) nr.toNat → s.out.knownBelow s.dstPos.toNat →
    ∃ m, exec (.br3 nr len off) s = .next (s.afterToken (3 + nr.toNat) (nr.toNat + len.toNat) m) ∧
      (∀ j, j < nr.toNat → m.read (s.dstPos.toNat + j) = s.inp.read (s.srcPos.toNat + 3 + j)) ∧
      (∀ j, j < len.toNat →
        m.read (s.dstPos.toNat + nr.toNat + j) = m.read (s.dstPos.toNat + nr.toNat - off.toNat + j)) ∧
      s.keepsOutside (nr.toNat + len.toNat) m

/-- A back-reference copy replicates the last `off` bytes before the cursor as a pattern of period `off`, whatever the overlap
(R138). That the copy is byte-serial is the spec's own (I6, D12; log entry 10). -/
def Obligations.OverlappingCopyRepeatsThePattern : Prop :=
  ∀ (off k : Nat) (s : State), 1 ≤ off → off ≤ s.dstPos.toNat → s.dstPos.toNat + k ≤ pageSize →
    s.out.knownBelow s.dstPos.toNat →
    ∃ t, copyBack off k s = .ok t ∧
      ∀ j, j < k → t.out.read (s.dstPos.toNat + j) = s.out.read (s.dstPos.toNat - off + j % off)

/-- The one write loop over `reps * span` bytes is the two nested loops of R150 (log entry 14). -/
def Obligations.ReplayIsTheNestedLoops : Prop :=
  ∀ (inp m : Memory) (a span base reps : Nat),
    writeRun (fun i _ => readIn inp (a + i % span)) base 0 (reps * span) m = replayLoop inp a span base reps m

/-! ### The tokens: their faults, in order -/

/-- The faults of `REC` in their order, under `whole_record` (R150): a failing record writes nothing (R152). -/
def Obligations.RecordFaults : Prop :=
  ∀ (rep span : BitVec 16) (s : State),
    (s.srcBudget.toNat < 4 → exec (.record rep span) s = .next (s.failedWith 1)) ∧
    (4 ≤ s.srcBudget.toNat → s.srcBudget.toNat < 4 + span.toNat →
      exec (.record rep span) s = .next (s.failedWith 2)) ∧
    (4 + span.toNat ≤ s.srcBudget.toNat → s.dstBudget.toNat < rep.toNat * span.toNat → s.v1DstCheck = .wholeRecord →
      exec (.record rep span) s = .next (s.failedWith 3))

/-- The overrun of `REC` under `per_repetition`: the whole repetitions that fit are written and counted, the source cursor stays
at the record's start (R152, R222). -/
def Obligations.RecordOverrunPerRepetition : Prop :=
  ∀ (rep span : BitVec 16) (s : State), s.v1DstCheck = .perRepetition → s.cursorsAgree →
    4 + span.toNat ≤ s.srcBudget.toNat → s.dstBudget.toNat < rep.toNat * span.toNat →
    s.literalsKnown (s.srcPos.toNat + 4) span.toNat →
    ∃ m, exec (.record rep span) s =
        .next ((s.afterToken 0 (s.dstBudget.toNat / span.toNat * span.toNat) m).failedWith 3) ∧
      (∀ r j, r < s.dstBudget.toNat / span.toNat → j < span.toNat →
        m.read (s.dstPos.toNat + r * span.toNat + j) = s.inp.read (s.srcPos.toNat + 4 + j)) ∧
      s.keepsOutside (s.dstBudget.toNat / span.toNat * span.toNat) m

/-- The faults of `LIT` in their order (R171). -/
def Obligations.LiteralRunFaults : Prop :=
  ∀ (n : BitVec 6) (s : State),
    (s.srcBudget.toNat < 1 + n.toNat → exec (.lit n) s = .next (s.failedWith 2)) ∧
    (1 + n.toNat ≤ s.srcBudget.toNat → s.dstBudget.toNat < n.toNat → exec (.lit n) s = .next (s.failedWith 3))

/-- The faults of `FILL` in their order, and that of an `END` whose second byte is missing (R172, R173). -/
def Obligations.FillFaults : Prop :=
  ∀ (m v : BitVec 8) (s : State),
    (s.srcBudget.toNat < 3 → exec (.fill m v) s = .next (s.failedWith 1)) ∧
    (3 ≤ s.srcBudget.toNat → s.dstBudget.toNat < m.toNat → exec (.fill m v) s = .next (s.failedWith 3)) ∧
    (s.srcBudget.toNat < 2 → exec .endPage s = .next (s.failedWith 1))

/-- The faults of `BR1` in their order (R174); a failing token writes none of its prefix (R140). -/
def Obligations.BackReferenceShapeOneFaults : Prop :=
  ∀ (nr : BitVec 4) (len : BitVec 6) (off : BitVec 12) (s : State), (Instr.br1 nr len off).wf = true →
    (s.srcBudget.toNat < 2 → exec (.br1 nr len off) s = .next (s.failedWith 1)) ∧
    (2 ≤ s.srcBudget.toNat → s.srcBudget.toNat < 2 + nr.toNat → exec (.br1 nr len off) s = .next (s.failedWith 2)) ∧
    (2 + nr.toNat ≤ s.srcBudget.toNat → s.dstBudget.toNat < nr.toNat →
      exec (.br1 nr len off) s = .next (s.failedWith 3)) ∧
    (2 + nr.toNat ≤ s.srcBudget.toNat → nr.toNat ≤ s.dstBudget.toNat →
      s.dstPos.toNat + nr.toNat < off.toNat ∨ off.toNat = 0 → exec (.br1 nr len off) s = .next (s.failedWith 4)) ∧
    (2 + nr.toNat ≤ s.srcBudget.toNat → nr.toNat ≤ s.dstBudget.toNat → off.toNat ≤ s.dstPos.toNat + nr.toNat →
      off.toNat ≠ 0 → s.dstBudget.toNat < nr.toNat + len.toNat → exec (.br1 nr len off) s = .next (s.failedWith 3))

/-- The faults of `BR2` in their order (R175). -/
def Obligations.BackReferenceShapeTwoFaults : Prop :=
  ∀ (len : BitVec 6) (off : BitVec 12) (s : State), (Instr.br2 len off).wf = true →
    (s.srcBudget.toNat < 2 → exec (.br2 len off) s = .next (s.failedWith 1)) ∧
    (2 ≤ s.srcBudget.toNat → s.dstPos.toNat < off.toNat ∨ off.toNat = 0 →
      exec (.br2 len off) s = .next (s.failedWith 4)) ∧
    (2 ≤ s.srcBudget.toNat → off.toNat ≤ s.dstPos.toNat → off.toNat ≠ 0 → s.dstBudget.toNat < len.toNat →
      exec (.br2 len off) s = .next (s.failedWith 3))

/-- The faults of `BR3` in their order; the offset check of a zero-length copy still applies (R176, R180). -/
def Obligations.BackReferenceShapeThreeFaults : Prop :=
  ∀ (nr : BitVec 4) (len : BitVec 6) (off : BitVec 12) (s : State),
    (s.srcBudget.toNat < 3 → exec (.br3 nr len off) s = .next (s.failedWith 1)) ∧
    (3 ≤ s.srcBudget.toNat → s.srcBudget.toNat < 3 + nr.toNat → exec (.br3 nr len off) s = .next (s.failedWith 2)) ∧
    (3 + nr.toNat ≤ s.srcBudget.toNat → s.dstBudget.toNat < nr.toNat →
      exec (.br3 nr len off) s = .next (s.failedWith 3)) ∧
    (3 + nr.toNat ≤ s.srcBudget.toNat → nr.toNat ≤ s.dstBudget.toNat →
      s.dstPos.toNat + nr.toNat < off.toNat ∨ (off.toNat = 0 ∧ 0 < len.toNat) →
      exec (.br3 nr len off) s = .next (s.failedWith 4)) ∧
    (3 + nr.toNat ≤ s.srcBudget.toNat → nr.toNat ≤ s.dstBudget.toNat → off.toNat ≤ s.dstPos.toNat + nr.toNat →
      (off.toNat = 0 → len.toNat = 0) → s.dstBudget.toNat < nr.toNat + len.toNat →
      exec (.br3 nr len off) s = .next (s.failedWith 3))

/-! ### The tokens: what none of them changes -/

/-- The frame of every token, from any state: the input page, the host's registers, the run's latched registers, the field
latches, the parameter and the model's own fields stay; the status and the counts change only where the run ends (R22, R27, R41,
R68). -/
def Obligations.TokensLeaveTheRestAlone : Prop :=
  ∀ (i : Instr) (s t : State), exec i s = .next t →
    t.inp = s.inp ∧ t.alg = s.alg ∧ t.irqEn = s.irqEn ∧ t.srcLen = s.srcLen ∧ t.srcLenRun = s.srcLenRun ∧
    t.algRun = s.algRun ∧ t.latches = s.latches ∧ t.v1DstCheck = s.v1DstCheck ∧ t.turns = s.turns ∧
    t.reads = s.reads ∧ t.draws = s.draws ∧
    ((t.runState = s.runState ∧ t.errCode = s.errCode ∧ t.dstCount = s.dstCount ∧ t.srcCount = s.srcCount) ∨
      ((t.runState = .doneOk ∨ t.runState = .doneErr) ∧ t.dstCount = t.dstPos ∧ t.srcCount = t.srcPos))

/-- After a token that executes without a fault the source cursor has advanced by exactly its length and the budget has dropped
by the same amount; on a fault no cursor advances and nothing is written, but for the one exception of R222: the destination after a
V1 `DestinationOverrun` under `per_repetition`, where the source still stays (R95, R96, R152, R222). -/
def Obligations.SourceAdvancesByTheTokenLength : Prop :=
  ∀ (i : Instr) (s t : State), s.runState = .run → s.cursorsAgree → exec i s = .next t →
    (t.err = false → ∃ k, t.srcPos.toNat = s.srcPos.toNat + k ∧ t.srcBudget.toNat + k = s.srcBudget.toNat ∧
      (∀ rep span, i = .record rep span → k = 4 + span.toNat) ∧ (∀ n, i = .lit n → k = 1 + n.toNat) ∧
      (∀ m v, i = .fill m v → k = 3) ∧ (i = .endPage → k = 2) ∧
      (∀ nr len off, i = .br1 nr len off → k = 2 + nr.toNat) ∧ (∀ len off, i = .br2 len off → k = 2) ∧
      (∀ nr len off, i = .br3 nr len off → k = 3 + nr.toNat)) ∧
    (t.err = true → t.srcPos = s.srcPos ∧ t.srcBudget = s.srcBudget ∧
      (s.v1DstCheck = .wholeRecord ∨ i.grammar = .v2 ∨ t.errCode ≠ 3 →
        t.dstPos = s.dstPos ∧ t.dstBudget = s.dstBudget ∧ t.out = s.out))

/-! ### The engine's step -/

/-- A step runs the decoded token: when the engine has the turn in a run and the bytes at the source cursor decode to `i`, the
step is exec of `i` with its fields latched (R26, R203). When the latches are written is the model's choice (log entry 2), and so
is that an empty list of turns is the engine's turn (log entry 1). -/
def Obligations.StepRunsTheDecodedToken : Prop :=
  ∀ (s : State) (i : Instr) (rest : List Byte), s.runState = .run → 0 < s.srcBudget.toNat →
    decode s.algRun s.fetchBytes = .token i rest →
    (s.turns = [] → step s = exec i (s.latch i)) ∧
    (∀ ts, s.turns = .engine :: ts → step s = exec i (State.latch i { s with turns := ts }))

/-- The same from the encoder's side: when `IN` holds a well-formed token's fixed bytes at the source cursor, inside the source,
the engine's step runs that token (R26, R110, R170, R203). When the latches are written is the model's choice (log entry 2). -/
def Obligations.StoredTokenIsRun : Prop :=
  ∀ (s : State) (i : Instr), s.runState = .run → s.turns = [] → i.wf = true → i.grammar = s.algRun →
    i.fixedLength ≤ s.srcBudget.toNat →
    (∀ j, j < i.fixedLength → s.inp.read (s.srcPos.toNat + j) = (encode i)[j]?) →
    step s = exec i (s.latch i)

/-- A V1 run ends with success exactly when a step begins with `src_rem = 0`, its `SRC_COUNT` is then `SRC_LEN_RUN`, and an empty
source succeeds at the first step with `DST_COUNT = 0` (R154, R205). -/
def Obligations.RecordRunSucceedsExactlyAtTheEnd : Prop :=
  (∀ s : State, s.runState = .run → s.turns = [] → s.algRun = .v1 →
    (s.srcBudget.toNat = 0 → step s = .next
      { s with dstCount := s.dstPos, srcCount := s.srcPos, runState := .doneOk, errCode := 0 }) ∧
    (∀ t, step s = .next t → t.runState = .doneOk →
      s.srcBudget.toNat = 0 ∧ (s.cursorsAgree → t.srcCount = t.srcLenRun))) ∧
  ∀ s : State, s.turns = [] → s.alg = .v1 → s.srcLen = 0 →
    ∃ t, step (startRun s) = .next t ∧ t.runState = .doneOk ∧ t.errCode = 0 ∧ t.dstCount = 0 ∧ t.srcCount = 0

/-- A V2 run succeeds only through `END`; a step that begins with `src_rem = 0`, that of an empty source too, raises
`SourceExhausted` with `DST_COUNT = d` and `SRC_COUNT = SRC_LEN_RUN` (R173, R178, R182). -/
def Obligations.TokenRunSucceedsOnlyByTheEndMarker : Prop :=
  (∀ s : State, s.runState = .run → s.turns = [] → s.algRun = .v2 →
    (s.srcBudget.toNat = 0 → s.cursorsAgree → step s = .next
      { s with runState := .doneErr, errCode := 1, dstCount := s.dstPos, srcCount := s.srcLenRun }) ∧
    (∀ t, step s = .next t → t.runState = .doneOk →
      2 ≤ s.srcBudget.toNat ∧ s.inp.read s.srcPos.toNat = some 0 ∧ s.inp.read (s.srcPos.toNat + 1) = some 0 ∧
        t.srcCount = BitVec.ofNat 13 (s.srcPos.toNat + 2) ∧ t.dstCount = s.dstPos)) ∧
  ∀ s : State, s.turns = [] → s.alg = .v2 → s.srcLen = 0 →
    ∃ t, step (startRun s) = .next t ∧ t.runState = .doneErr ∧ t.errCode = 1 ∧ t.dstCount = 0 ∧ t.srcCount = 0

/-- A stream that ends inside a token's fixed bytes raises `SourceExhausted`, and no byte at or past the declared length is
looked at (R150, R172, R174 to R176, R179). -/
def Obligations.CutShortTokenIsSourceExhausted : Prop :=
  ∀ s : State, s.runState = .run → s.turns = [] →
    (s.algRun = .v1 → 1 ≤ s.srcBudget.toNat → s.srcBudget.toNat ≤ 3 → step s = .next (s.failedWith 1)) ∧
    (∀ b0, s.algRun = .v2 → s.inp.read s.srcPos.toNat = some b0 →
      (s.srcBudget.toNat = 1 → b0.toNat % 4 ≠ 0 ∨ b0.toNat = 0 → step s = .next (s.failedWith 1)) ∧
      (s.srcBudget.toNat = 2 → b0.toNat % 4 = 3 → step s = .next (s.failedWith 1)) ∧
      (∀ m, s.srcBudget.toNat = 2 → b0.toNat = 0 → s.inp.read (s.srcPos.toNat + 1) = some m → m ≠ 0 →
        step s = .next (s.failedWith 1)))

/-- The engine stops at an `IN` byte that nothing has written, when it would read it (R255): at any of a token's fixed bytes, a V1
header byte or a V2 control or fill byte, and at any literal byte, a V1 span byte or a `LIT`, `BR1` or `BR3` literal, of a token
whose literals are read. The stop is the model's own (log entry 8), and when it comes is read from the pseudocode (log entry 15). -/
def Obligations.UnwrittenInputStopsTheModel : Prop :=
  ∀ s : State, s.runState = .run → s.turns = [] → s.cursorsAgree →
    (∀ (bs : List Byte) (k : Nat), (∀ j, j < bs.length → s.inp.read (s.srcPos.toNat + j) = bs[j]?) →
      s.inp.read (s.srcPos.toNat + bs.length) = none → decode s.algRun bs = .needs k → k ≤ s.srcBudget.toNat →
      step s = .fault (.unwrittenInput (s.srcPos.toNat + bs.length))) ∧
    (∀ (i : Instr) (rest : List Byte) (j : Nat), decode s.algRun s.fetchBytes = .token i rest → s.readsLiterals i →
      j < i.literalLength → s.literalsKnown (s.srcPos.toNat + i.fixedLength) j →
      s.inp.read (s.srcPos.toNat + i.fixedLength + j) = none →
      step s = .fault (.unwrittenInput (s.srcPos.toNat + i.fixedLength + j)))

/-- The engine's turn changes none of its inputs, from any state (R22, R35, R41). -/
def Obligations.EngineNeverWritesItsInputs : Prop :=
  ∀ s t : State, engineStep s = .next t →
    t.inp = s.inp ∧ t.alg = s.alg ∧ t.irqEn = s.irqEn ∧ t.srcLen = s.srcLen ∧ t.srcLenRun = s.srcLenRun ∧
    t.algRun = s.algRun ∧ t.v1DstCheck = s.v1DstCheck ∧ t.reads = s.reads ∧ t.draws = s.draws

/-- Cursors advance monotonically, and a step writes only the bytes between the destination cursor before it and after it (R21,
R42, R135). -/
def Obligations.EngineWritesOnlyBetweenTheCursors : Prop :=
  ∀ s t : State, s.Inv → engineStep s = .next t →
    s.srcPos.toNat ≤ t.srcPos.toNat ∧ s.dstPos.toNat ≤ t.dstPos.toNat ∧
      ∀ a, a < s.dstPos.toNat ∨ t.dstPos.toNat ≤ a → t.out.read a = s.out.read a

/-- A halted engine takes no step: its turn changes nothing (R203, R227). -/
def Obligations.HaltedEngineChangesNothing : Prop :=
  ∀ s : State, s.busy = false →
    (s.turns = [] → step s = .next s) ∧ (∀ ts, s.turns = .engine :: ts → step s = .next { s with turns := ts })

/-- In a run whose input is written, an engine's step continues, succeeds or fails, and has no other outcome (R204). -/
def Obligations.EngineStepHasThreeOutcomes : Prop :=
  ∀ s : State, s.Inv → s.runState = .run → s.turns = [] → s.inputReady →
    ∃ t, step s = .next t ∧
      ((t.runState = .run ∧ s.srcPos.toNat + 2 ≤ t.srcPos.toNat) ∨
        (t.runState = .doneOk ∧ t.errCode = 0 ∧ t.dstCount = t.dstPos ∧ t.srcCount = t.srcPos) ∨
        (t.runState = .doneErr ∧ 1 ≤ t.errCode.toNat ∧ t.errCode.toNat ≤ 4 ∧ t.dstCount = t.dstPos ∧
          t.srcCount = s.srcPos))

/-! ### The whole machine -/

/-- The invariant holds after reset. -/
def Obligations.ResetStateIsGood : Prop := State.reset.Inv

/-- Every step keeps the invariant: cursors and budgets agree, the bytes below the destination cursor are known, the status is
legal and `ERRCODE` never 6 or 7, the reported bytes are known, the buffers keep their canonical form. -/
def Obligations.EveryStepKeepsTheInvariant : Prop :=
  ∀ s t : State, s.Inv → step s = .next t → t.Inv

/-- The model stops only at an unwritten input byte below the declared length: the engine reads no byte of `IN` at or past it, no
unwritten byte of `OUT`, and writes none past the page (R66, R137, R204, R255). -/
def Obligations.EngineStaysInsideTheBuffers : Prop :=
  ∀ (s : State) (f : Fault), s.Inv → step s = .fault f →
    ∃ a, f = .unwrittenInput a ∧ s.srcPos.toNat ≤ a ∧ a < s.srcLenRun.toNat ∧ s.inp.read a = none

/-- Every run ends: with the engine alone taking turns it is over after at most one step per four (V1) or two (V2) bytes left
in the source, and one more; at most 1025 and 2049 steps (R207). -/
def Obligations.EveryRunEnds : Prop :=
  ∀ s : State, s.Inv → s.runState = .run → s.turns = [] → s.inputReady →
    ∃ t, Sys2Proof.core.run (if s.algRun = .v1 then s.srcBudget.toNat / 4 + 1 else s.srcBudget.toNat / 2 + 1) s = .next t ∧
      (t.runState = .doneOk ∨ t.runState = .doneErr) ∧ s.srcBudget.toNat / 4 + 1 ≤ 1025 ∧ s.srcBudget.toNat / 2 + 1 ≤ 2049

/-- A run writes exactly the bytes it reports: after it the bytes of `OUT` below `DST_COUNT` are known, every other one and all of
`IN` are as at START (R42, R209). -/
def Obligations.RunWritesExactlyTheCountedBytes : Prop :=
  ∀ (s t : State) (n : Nat), s.Inv → s.turns = [] → s.srcLen.toNat ≤ pageSize →
    Sys2Proof.core.run n (startRun s) = .next t → t.busy = false →
    t.out.knownBelow t.dstCount.toNat ∧ (∀ a, t.dstCount.toNat ≤ a → t.out.read a = s.out.read a) ∧ t.inp = s.inp

/-- A run's result depends on nothing but `ALG`, `SRC_LEN`, the declared bytes of `IN` and the parameter: neither the prior
contents of `OUT`, nor the previous run, nor `IRQ_EN` (R45). -/
def Obligations.ResultDependsOnlyOnTheInputs : Prop :=
  ∀ (s u : State) (n : Nat), s.turns = [] → u.turns = [] → s.alg = u.alg → s.srcLen = u.srcLen →
    s.v1DstCheck = u.v1DstCheck → (∀ a, a < s.srcLen.toNat → s.inp.read a = u.inp.read a) →
    sameResult (Sys2Proof.core.run n (startRun s)) (Sys2Proof.core.run n (startRun u))

/-- Only a host START begins a run: the block never restarts itself (R31, R210). -/
def Obligations.OnlyStartBeginsARun : Prop :=
  ∀ s t : State, s.busy = false → step s = .next t → t.busy = true →
    ∃ v ts, s.turns = .host (.write 0x2000 (.word v)) :: ts ∧ v.getLsbD 0 = true ∧ s.srcLen.toNat ≤ pageSize

/-- A run ends only by an engine's step or by reset: there is no abort (R35, R252). -/
def Obligations.OnlyTheEngineOrResetEndsARun : Prop :=
  ∀ s t : State, s.busy = true → step s = .next t → t.busy = false →
    s.turns = [] ∨ (∃ ts, s.turns = .engine :: ts) ∨ (∃ ts, s.turns = .host .reset :: ts)

/-- No step, a reset among them, changes the parameter `P_V1_DST_CHECK`. R152 names the parameter; that it is held in State and kept
by every step is the model's choice (log entry 5, DESIGN CHOICE), and so is that reset keeps it (log entry 6, DESIGN CHOICE). -/
def Obligations.NoStepChangesTheParameter : Prop :=
  ∀ s t : State, step s = .next t → t.v1DstCheck = s.v1DstCheck

/-- Instances share nothing: a step of one leaves every other one as it was, and is the step that instance takes alone (R233). -/
def Obligations.InstancesAreIndependent : Prop :=
  ∀ (p q : Platform) (k : Nat), p.stepInstance k = .next q →
    q.instances.length = p.instances.length ∧ (∀ j, j ≠ k → q.instances[j]? = p.instances[j]?) ∧
      ∀ s, p.instances[k]? = some s → ∃ t, step s = .next t ∧ q.instances[k]? = some t

/-! ### Reset and the host's moves -/

/-- What reset leaves, where the spec gives a value (R44): registers, buffers, the run state and the words the host would read. The
latches' values are the model's choice (log entry 2) and are not stated. -/
def Obligations.ResetLeavesTheSpecValues : Prop :=
  State.reset.runState = .idle ∧ State.reset.errCode = 0 ∧ State.reset.alg = .v1 ∧ State.reset.irqEn = false ∧
  State.reset.srcLen = 0 ∧ State.reset.dstCount = 0 ∧ State.reset.srcCount = 0 ∧ State.reset.srcPos = 0 ∧
  State.reset.dstPos = 0 ∧ State.reset.srcBudget = 0 ∧ State.reset.dstBudget = 0 ∧ State.reset.srcLenRun = 0 ∧
  State.reset.algRun = .v1 ∧ (∀ a, State.reset.inp.read a = none) ∧ (∀ a, State.reset.out.read a = none) ∧
  State.reset.doneIrq = false ∧ State.reset.ctrlWord = 0 ∧ State.reset.statusWord = 0

/-- Reset may come at any time, in a run too: the state after it is the reset state (R250 to R252). That the parameter, the turns
to come and the record of the port are kept is the model's choice (log entry 6, DESIGN CHOICE), and so is the value 0 of the
field latches in the reset state (log entry 2, DESIGN CHOICE). -/
def Obligations.ResetAbandonsARun : Prop :=
  ∀ (s : State) (ts : List Turn), s.turns = .host .reset :: ts →
    step s = .next { State.reset with v1DstCheck := s.v1DstCheck, turns := ts, reads := s.reads, draws := s.draws }

/-- START from IDLE, DONE_OK or DONE_ERR, with CLEAR or without it: a legal length begins a run with both cursors at 0 and the
grammar just written; an illegal one ends at once with `BadSourceLength` and no engine step (R30, R31, R201). -/
def Obligations.StartBeginsARun : Prop :=
  ∀ (s : State) (v : Word) (ts : List Turn), s.turns = .host (.write 0x2000 (.word v)) :: ts → s.busy = false →
    v.getLsbD 0 = true →
    (s.srcLen.toNat ≤ pageSize → step s = .next
      { s with
        turns := ts, alg := algOfBit (v.getLsbD 1), irqEn := v.getLsbD 2, runState := .run, errCode := 0,
        dstCount := 0, srcCount := 0, algRun := algOfBit (v.getLsbD 1), srcLenRun := s.srcLen, srcPos := 0, dstPos := 0,
        srcBudget := s.srcLen, dstBudget := 4096 }) ∧
    (pageSize < s.srcLen.toNat → step s = .next
      { s with
        turns := ts, alg := algOfBit (v.getLsbD 1), irqEn := v.getLsbD 2, runState := .doneErr, errCode := 5,
        dstCount := 0, srcCount := 0 })

/-- A `CTRL` write without START, while not BUSY: ALG and IRQ_EN are stored; with CLEAR the run state becomes IDLE and the counts,
the buffers and `SRC_LEN` stay (R30, R34). -/
def Obligations.ClearReturnsToIdle : Prop :=
  ∀ (s : State) (v : Word) (ts : List Turn), s.turns = .host (.write 0x2000 (.word v)) :: ts → s.busy = false →
    v.getLsbD 0 = false →
    (v.getLsbD 3 = true → step s = .next
      { s with turns := ts, alg := algOfBit (v.getLsbD 1), irqEn := v.getLsbD 2, runState := .idle, errCode := 0 }) ∧
    (v.getLsbD 3 = false → step s = .next
      { s with turns := ts, alg := algOfBit (v.getLsbD 1), irqEn := v.getLsbD 2 })

/-- While BUSY, writes to `CTRL` and `SRC_LEN` change no state and start nothing (R35). -/
def Obligations.WritesWhileBusyAreIgnored : Prop :=
  ∀ (s : State) (v : Word) (ts : List Turn), s.busy = true →
    s.turns = .host (.write 0x2000 (.word v)) :: ts ∨ s.turns = .host (.write 0x2004 (.word v)) :: ts →
    step s = .next { s with turns := ts }

/-- `SRC_LEN` stores bits 12:0 as written, illegal lengths too, and reads them back with zeros above (R36). -/
def Obligations.SourceLengthIsStoredAsWritten : Prop :=
  ∀ (s : State) (v : Word) (ts : List Turn), s.busy = false →
    s.turns = .host (.write 0x2004 (.word v)) :: .host (.read 0x2004 .word) :: ts →
    ∃ t w, step s = .next t ∧ t = { s with srcLen := t.srcLen, turns := .host (.read 0x2004 .word) :: ts } ∧
      t.srcLen.toNat = v.toNat % 8192 ∧ step t = .next { t with turns := ts, reads := .word w :: t.reads } ∧
      w.toNat = v.toNat % 8192

/-- Writes to the read-only registers and to reserved offsets are ignored, and a reserved offset reads 0, in any state (R37 to
R40). -/
def Obligations.ReservedReadsZeroAndIgnoresWrites : Prop :=
  ∀ (s : State) (o : PortOffset) (v : Word) (ts : List Turn), o.toNat % 4 = 0 → 0x2008 ≤ o.toNat →
    (s.turns = .host (.write o (.word v)) :: ts → step s = .next { s with turns := ts }) ∧
    (0x2014 ≤ o.toNat → s.turns = .host (.read o .word) :: ts →
      step s = .next { s with turns := ts, reads := .word 0 :: s.reads })

/-- `STATUS` reads BUSY, DONE and ERR as the run state says and `ERRCODE` in bits 6:4, exactly and at all times (R25, R37). -/
def Obligations.StatusReadsTheRunState : Prop :=
  ∀ (s : State) (ts : List Turn), s.turns = .host (.read 0x2008 .word) :: ts →
    ∃ w : Word, step s = .next { s with turns := ts, reads := .word w :: s.reads } ∧
      (s.runState = .idle → w.toNat = 0 + 16 * s.errCode.toNat) ∧ (s.runState = .run → w.toNat = 1 + 16 * s.errCode.toNat) ∧
      (s.runState = .doneOk → w.toNat = 2 + 16 * s.errCode.toNat) ∧
      (s.runState = .doneErr → w.toNat = 6 + 16 * s.errCode.toNat)

/-- `CTRL` reads ALG in bit 1 and IRQ_EN in bit 2 and 0 elsewhere, START and CLEAR among it (R30). -/
def Obligations.ControlReadsBack : Prop :=
  ∀ (s : State) (ts : List Turn), s.turns = .host (.read 0x2000 .word) :: ts →
    ∃ w : Word, step s = .next { s with turns := ts, reads := .word w :: s.reads } ∧
      w.toNat = (if s.alg = .v2 then 2 else 0) + (if s.irqEn then 4 else 0)

/-- The count registers read their counts while not BUSY; while BUSY a read gives some 13-bit value, whichever, with zeros above,
and takes a draw (R38, R39, R47). That each such read takes a fresh draw is the model's choice (log entry 4). -/
def Obligations.CountRegistersRead : Prop :=
  ∀ (s : State) (ts : List Turn) (o : PortOffset), s.turns = .host (.read o .word) :: ts →
    (o = 0x200C ∨ o = 0x2010) →
    ∃ w : Word, w.toNat < 2 ^ 13 ∧
      (s.busy = false → step s = .next { s with turns := ts, reads := .word w :: s.reads } ∧
        w.toNat = (if o = 0x200C then s.dstCount.toNat else s.srcCount.toNat)) ∧
      (s.busy = true → step s = .next { s with turns := ts, reads := .word w :: s.reads, draws := s.draws + 1 })

/-- A host access that is misaligned, or to a register and not 4 bytes wide, is refused (R62); so is one to a buffer while BUSY
(R260). Which refusal is named where several grounds hold, misalignment, then BUSY, then the width, is the model's choice (log
entry 18, DESIGN CHOICE); that a reserved offset counts as a register is read from R29 and R62 (log entry 13, DEDUCED). -/
def Obligations.OtherAccessesAreRefused : Prop :=
  ∀ (s : State) (a : HostAction) (o : PortOffset) (w : PortWidth) (ts : List Turn), s.turns = .host a :: ts →
    (a = .read o w ∨ ∃ d : PortData, d.width = w ∧ a = .write o d) →
    (o.toNat % w.size ≠ 0 → step s = .refused .misalignedAccess) ∧
    (o.toNat % w.size = 0 → o.toNat < 0x2000 → s.busy = true → step s = .refused .bufferWhileBusy) ∧
    (o.toNat % w.size = 0 → 0x2000 ≤ o.toNat → w ≠ .word → step s = .refused .registerWidth)

/-- An aligned host write of 1, 2 or 4 bytes to a buffer, while not BUSY, stores byte `k` of the data at offset `a + k` and changes
nothing else (R61 to R63, R68). -/
def Obligations.HostWriteStoresItsBytes : Prop :=
  ∀ (s : State) (o : PortOffset) (d : PortData) (ts : List Turn), s.turns = .host (.write o d) :: ts →
    s.busy = false → o.toNat % d.width.size = 0 →
    (o.toNat < 0x1000 → ∃ m, step s = .next { s with turns := ts, inp := m } ∧
      (∀ k, k < d.width.size → m.read (o.toNat + k) = d.bytes[k]?) ∧
      ∀ a, a < o.toNat ∨ o.toNat + d.width.size ≤ a → m.read a = s.inp.read a) ∧
    (0x1000 ≤ o.toNat → o.toNat < 0x2000 → ∃ m, step s = .next { s with turns := ts, out := m } ∧
      (∀ k, k < d.width.size → m.read (o.toNat - 0x1000 + k) = d.bytes[k]?) ∧
      ∀ a, a < o.toNat - 0x1000 ∨ o.toNat - 0x1000 + d.width.size ≤ a → m.read a = s.out.read a)

/-- An aligned host read of 1, 2 or 4 known bytes of a buffer, while not BUSY, returns them in little-endian order and has no side
effect (R61, R63, R65). -/
def Obligations.HostReadReturnsTheBytes : Prop :=
  ∀ (s : State) (o : PortOffset) (w : PortWidth) (ts : List Turn), s.turns = .host (.read o w) :: ts →
    s.busy = false → o.toNat % w.size = 0 →
    (o.toNat < 0x1000 → (∀ k, k < w.size → (s.inp.read (o.toNat + k)).isSome = true) →
      ∃ d : PortData, d.width = w ∧ step s = .next { s with turns := ts, reads := d :: s.reads } ∧
        ∀ k, k < w.size → d.bytes[k]? = s.inp.read (o.toNat + k)) ∧
    (0x1000 ≤ o.toNat → o.toNat < 0x2000 → (∀ k, k < w.size → (s.out.read (o.toNat - 0x1000 + k)).isSome = true) →
      ∃ d : PortData, d.width = w ∧ step s = .next { s with turns := ts, reads := d :: s.reads } ∧
        ∀ k, k < w.size → d.bytes[k]? = s.out.read (o.toNat - 0x1000 + k))

/-- No host read changes anything but the model's record of what was returned and its count of draws (R65). -/
def Obligations.ReadsHaveNoSideEffect : Prop :=
  ∀ (s t : State) (o : PortOffset) (w : PortWidth) (ts : List Turn), s.turns = .host (.read o w) :: ts →
    step s = .next t → ∃ d : PortData, t = { s with turns := ts, reads := d :: s.reads, draws := t.draws } ∧ d.width = w

/-- `done_irq` is asserted exactly while the last run has ended and `IRQ_EN` is set, for success and failure alike; CLEAR, a
legal START and a write of `IRQ_EN = 0` end it (R43, R228). -/
def Obligations.CompletionSignalIsALevel : Prop :=
  ∀ s : State,
    (s.doneIrq = true ↔ (s.runState = .doneOk ∨ s.runState = .doneErr) ∧ s.irqEn = true) ∧
    ∀ (v : Word) (ts : List Turn), s.turns = .host (.write 0x2000 (.word v)) :: ts → s.busy = false →
      ((v.getLsbD 0 = false ∧ v.getLsbD 3 = true) ∨ (v.getLsbD 0 = true ∧ s.srcLen.toNat ≤ pageSize) ∨
        v.getLsbD 2 = false) →
      ∃ t, step s = .next t ∧ t.doneIrq = false

/-! ### The buffers -/

/-- Reading a buffer after a write, and the canonical form: equal contents are equal memories (R46, R68). -/
def Obligations.MemoryIsCanonical : Prop :=
  (∀ (m : Memory) (a c : Nat) (v : Byte), (m.write a v).read c = if c = a then some v else m.read c) ∧
  (∀ (m : Memory) (a : Nat) (v : Byte), m.wf → a < pageSize → (m.write a v).wf) ∧
  (∀ m n : Memory, m.wf → n.wf → (∀ a, m.read a = n.read a) → m = n)
end

