-- ==== Sys2Proof/Laws/Decode.lean ====
section
/-! SUPPORT. What the decoder can answer: a well-formed token of its grammar with its fixed bytes removed, or a number of fixed
bytes that the given bytes do not reach. -/

namespace Sys2Proof

@[simp] theorem fixedLength_pos (i : Instr) : 0 < i.fixedLength := by cases i <;> simp [Instr.fixedLength]

theorem fixedLength_le_four (i : Instr) : i.fixedLength ≤ 4 := by cases i <;> simp [Instr.fixedLength]

/-- Joining bit fields, in arithmetic. -/
theorem toNat_cat {a b : Nat} (x : BitVec a) (y : BitVec b) : (x ++ y).toNat = x.toNat * 2 ^ b + y.toNat := by
  rw [BitVec.toNat_append, Nat.shiftLeft_eq, ← Nat.mul_comm (2 ^ b), ← Nat.two_pow_add_eq_or_of_lt y.isLt]

/-- Taking a bit field, in arithmetic. -/
theorem toNat_field {w : Nat} (x : BitVec w) (s l : Nat) : (x.extractLsb' s l).toNat = x.toNat / 2 ^ s % 2 ^ l := by
  simp [BitVec.extractLsb'_toNat, Nat.shiftRight_eq_div_pow]

/-- The encoder writes exactly the fixed bytes (R95, R110). -/
@[simp] theorem length_encode (i : Instr) : (encode i).length = i.fixedLength := by cases i <;> rfl

/-- A biased 3-bit length lies in 3..10 (R101). -/
theorem biased3_range (x : BitVec 3) : 3 ≤ (x.setWidth 6 + 3).toNat ∧ (x.setWidth 6 + 3).toNat ≤ 10 := by
  revert x; decide

/-- A biased 2-bit length lies in 3..6 (R102). -/
theorem biased2_range (x : BitVec 2) : 3 ≤ (x.setWidth 6 + 3).toNat ∧ (x.setWidth 6 + 3).toNat ≤ 6 := by
  revert x; decide

/-- The fields of shape 1 are in the operand ranges. -/
theorem wf_br1_fields (x : BitVec 2) (y : BitVec 3) (z : BitVec 9) :
    (Instr.br1 (x.setWidth 4) (y.setWidth 6 + 3) (z.setWidth 12)).wf = true := by
  have h := biased3_range y
  have hx := x.isLt
  have hz := z.isLt
  simp only [Instr.wf, Bool.and_eq_true, decide_eq_true_eq, BitVec.toNat_setWidth]
  omega

/-- The fields of shape 2 are in the operand ranges. -/
theorem wf_br2_fields (y : BitVec 2) (z : BitVec 12) : (Instr.br2 (y.setWidth 6 + 3) z).wf = true := by
  simpa [Instr.wf] using biased2_range y

/-- What a decoded token is. -/
theorem decode_token {g : Grammar} {bs rest : List Byte} {i : Instr} (h : decode g bs = .token i rest) :
    i.wf = true ∧ i.grammar = g ∧ bs.length = i.fixedLength + rest.length := by
  cases g with
  | v1 =>
    match bs, h with
    | b0 :: b1 :: b2 :: b3 :: r, h =>
      simp only [decode, decodeV1, Decoded.token.injEq] at h
      obtain ⟨rfl, rfl⟩ := h
      simp [Instr.wf, Instr.grammar, Instr.fixedLength]; omega
  | v2 =>
    match bs, h with
    | b0 :: r, h =>
      simp only [decode, decodeV2] at h
      split at h
      · simp only [decodeShape0] at h
        split at h
        · next hn =>
          simp only [Decoded.token.injEq] at h
          obtain ⟨rfl, rfl⟩ := h
          exact ⟨by simpa [Instr.wf] using hn, rfl, by simp [Instr.fixedLength]; omega⟩
        · match r, h with
          | b1 :: r, h =>
            simp only at h
            split at h
            · simp only [Decoded.token.injEq] at h
              obtain ⟨rfl, rfl⟩ := h
              simp [Instr.wf, Instr.grammar, Instr.fixedLength]; omega
            · next hm =>
              match r, h with
              | b2 :: r, h =>
                simp only [Decoded.token.injEq] at h
                obtain ⟨rfl, rfl⟩ := h
                exact ⟨by simpa [Instr.wf] using hm, rfl, by simp [Instr.fixedLength]; omega⟩
      · split at h
        · match r, h with
          | b1 :: r, h =>
            simp only [decodeShape1, Decoded.token.injEq] at h
            obtain ⟨rfl, rfl⟩ := h
            exact ⟨wf_br1_fields _ _ _, rfl, by simp [Instr.fixedLength]; omega⟩
        · split at h
          · match r, h with
            | b1 :: r, h =>
              simp only [decodeShape2, Decoded.token.injEq] at h
              obtain ⟨rfl, rfl⟩ := h
              exact ⟨wf_br2_fields _ _, rfl, by simp [Instr.fixedLength]; omega⟩
          · match r, h with
            | b1 :: b2 :: r, h =>
              simp only [decodeShape3, Decoded.token.injEq] at h
              obtain ⟨rfl, rfl⟩ := h
              simp [Instr.wf, Instr.grammar, Instr.fixedLength]; omega

/-- What the decoder needs when it answers no token: more fixed bytes than it was given. -/
theorem decode_needs {g : Grammar} {bs : List Byte} {k : Nat} (h : decode g bs = .needs k) :
    bs.length < k ∧ k ≤ 4 := by
  cases g with
  | v1 =>
    simp only [decode] at h
    match bs, h with
    | [], h => simp [decodeV1] at h; simp [← h]
    | [_], h => simp [decodeV1] at h; simp [← h]
    | [_, _], h => simp [decodeV1] at h; simp [← h]
    | [_, _, _], h => simp [decodeV1] at h; simp [← h]
  | v2 =>
    match bs, h with
    | [], h => simp [decode, decodeV2] at h; simp [← h]
    | b0 :: r, h =>
      simp only [decode, decodeV2] at h
      split at h
      · simp only [decodeShape0] at h
        split at h
        · cases h
        · match r, h with
          | [], h => simp at h; simp [← h]
          | b1 :: r, h =>
            simp only at h
            split at h
            · cases h
            · match r, h with
              | [], h => simp at h; simp [← h]
      · split at h
        · match r, h with
          | [], h => simp [decodeShape1] at h; simp [← h]
        · split at h
          · match r, h with
            | [], h => simp [decodeShape2] at h; simp [← h]
          · match r, h with
            | [], h => simp [decodeShape3] at h; simp [← h]
            | [_], h => simp [decodeShape3] at h; simp [← h]

/-- A decoded token is at least two bytes long (R95, R207). -/
theorem two_le_length {i : Instr} (h : i.wf = true) : 2 ≤ i.length := by
  cases i with
  | record rep span => simp [Instr.length, Instr.fixedLength]; omega
  | lit n =>
    have : n.toNat ≠ 0 := fun e => by
      have : n = 0 := BitVec.eq_of_toNat_eq (by simpa using e)
      simp [Instr.wf, this] at h
    simp [Instr.length, Instr.fixedLength, Instr.literalLength]; omega
  | fill m v => simp [Instr.length, Instr.fixedLength]; omega
  | endPage => simp [Instr.length, Instr.fixedLength]
  | br1 nr len off => simp [Instr.length, Instr.fixedLength]
  | br2 len off => simp [Instr.length, Instr.fixedLength]
  | br3 nr len off => simp [Instr.length, Instr.fixedLength]; omega

end Sys2Proof
end

