-- ==== Sys2Proof/Laws/Memory.lean ====
section
/-! SUPPORT. The laws of the buffers: reading after writing, the canonical form, and what the one write loop does. -/

namespace Sys2Proof.Machine

@[simp] theorem read_nil (a : Nat) : Memory.read [] a = none := rfl

/-- Reading the byte just written. -/
@[simp] theorem read_write_same (m : Memory) (a : Nat) (v : Byte) : (m.write a v).read a = some v := by
  induction m with
  | nil => simp [Memory.write, Memory.read]
  | cons c m ih =>
    obtain ⟨k, b⟩ := c
    simp only [Memory.write]
    split
    · simp [Memory.read]
    · split
      · simp [Memory.read]
      · simp [Memory.read, *]

/-- A write leaves every other byte alone. -/
theorem read_write_other (m : Memory) (a c : Nat) (v : Byte) (h : c ≠ a) : (m.write a v).read c = m.read c := by
  induction m with
  | nil => simp [Memory.write, Memory.read, h]
  | cons e m ih =>
    obtain ⟨k, b⟩ := e
    simp only [Memory.write]
    split
    · simp [Memory.read, h]
    · split
      · next h2 => subst h2; simp [Memory.read, h]
      · simp only [Memory.read]; split
        · rfl
        · exact ih

theorem read_write (m : Memory) (a c : Nat) (v : Byte) :
    (m.write a v).read c = if c = a then some v else m.read c := by
  split
  · next h => subst h; simp
  · next h => exact read_write_other m a c v h

/-- The addresses of a memory after a write are its own and the one written. -/
theorem mem_write {m : Memory} {a : Nat} {v : Byte} {c : Host.Cell} (h : c ∈ m.write a v) : c.1 = a ∨ c ∈ m := by
  induction m with
  | nil => simp [Memory.write] at h; simp [h]
  | cons e m ih =>
    obtain ⟨k, b⟩ := e
    simp only [Memory.write] at h
    split at h
    · rcases List.mem_cons.mp h with rfl | h
      · simp
      · exact .inr h
    · split at h
      · rcases List.mem_cons.mp h with rfl | h
        · simp
        · exact .inr (List.mem_cons_of_mem _ h)
      · rcases List.mem_cons.mp h with rfl | h
        · simp
        · exact (ih h).imp id (List.mem_cons_of_mem _)

/-- A write inside the buffer keeps the canonical form. -/
theorem wf_write {m : Memory} {a : Nat} (v : Byte) (h : m.wf) (ha : a < pageSize) : (m.write a v).wf := by
  refine ⟨?_, fun c hc => (mem_write hc).elim (fun e => e ▸ ha) (h.2 c)⟩
  obtain ⟨h, -⟩ := h
  induction m with
  | nil => simp [Memory.write]
  | cons e m ih =>
    obtain ⟨k, b⟩ := e
    have hk := List.pairwise_cons.mp h
    simp only [Memory.write]
    split
    · next hlt =>
      refine List.pairwise_cons.mpr ⟨fun c hc => ?_, h⟩
      rcases List.mem_cons.mp hc with rfl | hc
      · exact hlt
      · exact Nat.lt_trans hlt (hk.1 c hc)
    · split
      · next e => subst e; exact List.pairwise_cons.mpr ⟨hk.1, hk.2⟩
      · next h1 h2 =>
        refine List.pairwise_cons.mpr ⟨fun c hc => ?_, ih hk.2⟩
        rcases mem_write hc with e | hc
        · simp only [e]; omega
        · exact hk.1 c hc

/-- Consecutive byte writes inside the buffer keep the canonical form. -/
theorem wf_writeBytes {m : Memory} {a : Nat} {bs : List Byte} (h : m.wf) (ha : a + bs.length ≤ pageSize) :
    (m.writeBytes a bs).wf := by
  induction bs generalizing m a with
  | nil => exact h
  | cons b bs ih =>
    simp only [List.length_cons] at ha
    exact ih (wf_write b h (by omega)) (by omega)

/-- What consecutive byte writes leave at every offset (R63). -/
theorem read_writeBytes (m : Memory) (a c : Nat) (bs : List Byte) :
    (m.writeBytes a bs).read c = if a ≤ c ∧ c < a + bs.length then bs[c - a]? else m.read c := by
  induction bs generalizing m a with
  | nil => simp [Memory.writeBytes]
  | cons b bs ih =>
    rw [Memory.writeBytes, ih, read_write, List.length_cons]
    by_cases hc : c = a
    · subst hc; simp
    · by_cases h1 : a + 1 ≤ c ∧ c < a + 1 + bs.length
      · rw [if_pos h1, if_pos (by omega), show c - a = (c - (a + 1)) + 1 by omega, List.getElem?_cons_succ]
      · rw [if_neg h1, if_neg hc, if_neg (by omega)]

/-! ### The write loop -/

/-- All that the loop does when it answers a memory: the offsets lay inside the page, the canonical form is kept, every byte
written is known, and every byte outside the copy is as before. -/
theorem writeRun_ok {rd : Nat → Memory → Except Fault Byte} {base i k : Nat} {m m' : Memory}
    (h : writeRun rd base i k m = .ok m') :
    (0 < k → base + i + k ≤ pageSize) ∧ (m.wf → m'.wf) ∧
    (∀ a, base + i ≤ a → a < base + i + k → (m'.read a).isSome = true) ∧
    (∀ a, a < base + i ∨ base + i + k ≤ a → m'.read a = m.read a) := by
  induction k generalizing i m with
  | zero =>
    simp only [writeRun, Except.ok.injEq] at h
    subst h
    exact ⟨by omega, id, fun a _ _ => by omega, fun _ _ => rfl⟩
  | succ k ih =>
    simp only [writeRun] at h
    split at h
    · cases h
    next b hb =>
    split at h
    · cases h
    next m1 hm =>
    simp only [storeOut] at hm
    split at hm
    next ha =>
      obtain rfl := Except.ok.inj hm
      obtain ⟨h1, h2, h3, h4⟩ := ih h
      refine ⟨fun _ => ?_, fun w => h2 (wf_write b w ha), fun a l u => ?_, fun a o => ?_⟩
      · rcases Nat.eq_zero_or_pos k with rfl | hk
        · omega
        · have := h1 hk; omega
      · by_cases e : a = base + i
        · rw [h4 a (by omega), e, read_write_same]; rfl
        · exact h3 a (by omega) (by omega)
      · rw [h4 a (by omega), read_write_other _ _ _ _ (by omega)]
    next => cases hm

/-- Where the bytes of a copy come from does not depend on the copy's own writes, the loop writes exactly them. -/
theorem writeRun_const {rd : Nat → Memory → Except Fault Byte} {base : Nat} {f : Nat → Byte} (k i : Nat) (m : Memory)
    (hrd : ∀ j m, i ≤ j → j < i + k → rd j m = .ok (f j)) (hb : base + i + k ≤ pageSize) :
    ∃ m', writeRun rd base i k m = .ok m' ∧ ∀ j, i ≤ j → j < i + k → m'.read (base + j) = some (f j) := by
  induction k generalizing i m with
  | zero => exact ⟨m, rfl, fun j _ _ => by omega⟩
  | succ k ih =>
    obtain ⟨m', e, hm⟩ := ih (i + 1) (m.write (base + i) (f i)) (fun j m _ _ => hrd j m (by omega) (by omega)) (by omega)
    refine ⟨m', ?_, fun j l u => ?_⟩
    · rw [writeRun, hrd i m (by omega) (by omega)]
      simp only [storeOut, if_pos (show base + i < pageSize by omega)]
      exact e
    · by_cases h : j = i
      · subst h
        rw [(writeRun_ok e).2.2.2 _ (by omega), read_write_same]
      · exact hm j (by omega) (by omega)

/-- A back-reference copy whose source bytes are known completes, and byte `j` of it is the byte `off` before it in the
memory the copy leaves: the copy is byte-serial and forward (R138). -/
theorem writeRun_back {w off : Nat} (k i : Nat) (m : Memory) (ho : 0 < off) (hw : off ≤ w)
    (hk : ∀ a, w - off ≤ a → a < w + i → (m.read a).isSome = true) (hb : w + i + k ≤ pageSize) :
    ∃ m', writeRun (fun i m => readOut m (w - off + i)) w i k m = .ok m' ∧
      ∀ j, i ≤ j → j < i + k → m'.read (w + j) = m'.read (w - off + j) := by
  induction k generalizing i m with
  | zero => exact ⟨m, rfl, fun j _ _ => by omega⟩
  | succ k ih =>
    obtain ⟨b, hbv⟩ := Option.isSome_iff_exists.mp (hk (w - off + i) (by omega) (by omega))
    obtain ⟨m', e, hm⟩ := ih (i + 1) (m.write (w + i) b)
      (fun a l u => by
        rw [read_write]
        split
        · rfl
        · exact hk a l (by omega)) (by omega)
    have hrd : readOut m (w - off + i) = .ok b := by simp [readOut, hbv]
    refine ⟨m', ?_, fun j l u => ?_⟩
    · rw [writeRun, hrd]
      simp only [storeOut, if_pos (show w + i < pageSize by omega)]
      exact e
    · by_cases h : j = i
      · subst h
        have o := (writeRun_ok e).2.2.2
        rw [o _ (by omega), read_write_same, o _ (by omega), read_write_other _ _ _ _ (by omega), hbv]
      · exact hm j (by omega) (by omega)

/-- Two copies that read alike, in memories that agree below the write cursor, stop alike or leave memories that agree below
the cursor after them. -/
theorem writeRun_agree {rd rd' : Nat → Memory → Except Fault Byte} {base : Nat} (k i : Nat) (m m' : Memory)
    (hrd : ∀ j n n', i ≤ j → j < i + k → (∀ a, a < base + j → Memory.read n a = Memory.read n' a) → rd j n = rd' j n')
    (hm : ∀ a, a < base + i → m.read a = m'.read a) :
    (∃ f, writeRun rd base i k m = .error f ∧ writeRun rd' base i k m' = .error f) ∨
    (∃ n n', writeRun rd base i k m = .ok n ∧ writeRun rd' base i k m' = .ok n' ∧
      ∀ a, a < base + i + k → n.read a = n'.read a) := by
  induction k generalizing i m m' with
  | zero => exact .inr ⟨m, m', rfl, rfl, hm⟩
  | succ k ih =>
    have e := hrd i m m' (by omega) (by omega) hm
    simp only [writeRun, ← e]
    cases hr : rd i m with
    | error f => exact .inl ⟨f, rfl, rfl⟩
    | ok b =>
      by_cases hb : base + i < pageSize
      · simp only [storeOut, if_pos hb]
        have := ih (i + 1) (m.write (base + i) b) (m'.write (base + i) b)
          (fun j n n' l u h => hrd j n n' (by omega) (by omega) h)
          (fun a h => by
            rw [read_write, read_write]
            split
            · rfl
            · exact hm a (by omega))
        rwa [show base + (i + 1) + k = base + i + (k + 1) by omega] at this
      · simp only [storeOut, if_neg hb]
        exact .inl ⟨_, rfl, rfl⟩

/-! ### The write loop, cut and moved; where it stops -/

theorem readIn_ok {m : Memory} {a : Nat} (h : (m.read a).isSome = true) : readIn m a = .ok ((m.read a).get h) := by
  obtain ⟨b, e⟩ := Option.isSome_iff_exists.mp h
  simp [readIn, e]

theorem readIn_error {m : Memory} {a : Nat} {f : Fault} (h : readIn m a = .error f) :
    f = .unwrittenInput a ∧ m.read a = none := by
  unfold readIn at h
  split at h
  · cases h
  · next e => injection h with h; exact ⟨h.symm, e⟩

/-- A loop of `k + k'` bytes is the loop of the first `k` and then that of the rest. -/
theorem writeRun_split (rd : Nat → Memory → Except Fault Byte) (base i k k' : Nat) (m : Memory) :
    writeRun rd base i (k + k') m = (writeRun rd base i k m).bind (writeRun rd base (i + k) k') := by
  induction k generalizing i m with
  | zero => simp [writeRun, Except.bind]
  | succ k ih =>
    rw [show k + 1 + k' = (k + k') + 1 by omega, show i + (k + 1) = i + 1 + k by omega]
    simp only [writeRun]
    cases rd i m with
    | error f => rfl
    | ok b =>
      simp only
      cases storeOut m (base + i) b with
      | error f => rfl
      | ok m' => exact ih (i + 1) m'

/-- Two loops that write the same bytes to the same place are one. -/
theorem writeRun_shift {rd rd' : Nat → Memory → Except Fault Byte} {base base' i i' k : Nat} (m : Memory)
    (hb : base + i = base' + i') (h : ∀ j m, j < k → rd (i + j) m = rd' (i' + j) m) :
    writeRun rd base i k m = writeRun rd' base' i' k m := by
  induction k generalizing i i' m with
  | zero => rfl
  | succ k ih =>
    have h0 := h 0 m (by omega)
    simp only [Nat.add_zero] at h0
    simp only [writeRun, h0, hb]
    cases rd' i' m with
    | error f => rfl
    | ok b =>
      simp only
      cases storeOut m (base' + i') b with
      | error f => rfl
      | ok m' =>
        exact ih m' (by omega) fun j m hj => by
          have := h (j + 1) m (by omega)
          rwa [show i + (j + 1) = i + 1 + j by omega, show i' + (j + 1) = i' + 1 + j by omega] at this

/-- Inside the page a loop stops only where one of its reads does, with the bytes before it written. -/
theorem writeRun_error {rd : Nat → Memory → Except Fault Byte} {base i k : Nat} {m : Memory} {f : Fault}
    (hb : base + i + k ≤ pageSize) (h : writeRun rd base i k m = .error f) :
    ∃ j n, i ≤ j ∧ j < i + k ∧ rd j n = .error f ∧ (∀ a, a < base + i → n.read a = m.read a) ∧
      ∀ a, base + i ≤ a → a < base + j → (Memory.read n a).isSome = true := by
  induction k generalizing i m with
  | zero => simp [writeRun] at h
  | succ k ih =>
    simp only [writeRun] at h
    cases hr : rd i m with
    | error g =>
      rw [hr] at h
      injection h with h
      subst h
      exact ⟨i, m, by omega, by omega, hr, fun _ _ => rfl, fun a _ _ => by omega⟩
    | ok b =>
      rw [hr] at h
      simp only [storeOut, if_pos (show base + i < pageSize by omega)] at h
      obtain ⟨j, n, h1, h2, h3, h4, h5⟩ := ih (by omega) h
      refine ⟨j, n, by omega, by omega, h3,
        fun a ha => by rw [h4 a (by omega), read_write_other _ _ _ _ (by omega)], fun a l u => ?_⟩
      by_cases hh : a = base + i
      · subst hh
        rw [h4 _ (by omega), read_write_same]
        rfl
      · exact h5 a (by omega) u

/-- A loop inside the page stops at the first byte whose read stops, whatever `OUT` holds. -/
theorem writeRun_stops {rd : Nat → Memory → Except Fault Byte} {base i k j : Nat} {m : Memory} {f : Fault} (hl : i ≤ j)
    (hu : j < i + k) (hb : base + i + k ≤ pageSize) (hok : ∀ l n, i ≤ l → l < j → ∃ b, rd l n = .ok b)
    (he : ∀ n, rd j n = .error f) : writeRun rd base i k m = .error f := by
  induction k generalizing i m with
  | zero => omega
  | succ k ih =>
    rcases Nat.eq_or_lt_of_le hl with rfl | hlt
    · simp only [writeRun, he]
    · obtain ⟨b, hr⟩ := hok i m (Nat.le_refl i) hlt
      simp only [writeRun, hr, storeOut, if_pos (show base + i < pageSize by omega)]
      exact ih (by omega) (by omega) (by omega) fun l n h => hok l n (by omega)

end Sys2Proof.Machine
end

