-- ==== Sys2Proof/Laws/State.lean ====
section
/-! SUPPORT. What each named update of State does to each field: one lemma per field per update, so that no later proof unfolds a
record update. -/

namespace Sys2Proof.Machine

/-! ### finishOk -/

@[simp] theorem finishOk_runState (s : State) : (finishOk s).runState = .doneOk := rfl
@[simp] theorem finishOk_errCode (s : State) : (finishOk s).errCode = 0 := rfl
@[simp] theorem finishOk_alg (s : State) : (finishOk s).alg = s.alg := rfl
@[simp] theorem finishOk_irqEn (s : State) : (finishOk s).irqEn = s.irqEn := rfl
@[simp] theorem finishOk_srcLen (s : State) : (finishOk s).srcLen = s.srcLen := rfl
@[simp] theorem finishOk_dstCount (s : State) : (finishOk s).dstCount = s.dstPos := rfl
@[simp] theorem finishOk_srcCount (s : State) : (finishOk s).srcCount = s.srcPos := rfl
@[simp] theorem finishOk_srcPos (s : State) : (finishOk s).srcPos = s.srcPos := rfl
@[simp] theorem finishOk_dstPos (s : State) : (finishOk s).dstPos = s.dstPos := rfl
@[simp] theorem finishOk_srcBudget (s : State) : (finishOk s).srcBudget = s.srcBudget := rfl
@[simp] theorem finishOk_dstBudget (s : State) : (finishOk s).dstBudget = s.dstBudget := rfl
@[simp] theorem finishOk_srcLenRun (s : State) : (finishOk s).srcLenRun = s.srcLenRun := rfl
@[simp] theorem finishOk_algRun (s : State) : (finishOk s).algRun = s.algRun := rfl
@[simp] theorem finishOk_latches (s : State) : (finishOk s).latches = s.latches := rfl
@[simp] theorem finishOk_inp (s : State) : (finishOk s).inp = s.inp := rfl
@[simp] theorem finishOk_out (s : State) : (finishOk s).out = s.out := rfl
@[simp] theorem finishOk_v1DstCheck (s : State) : (finishOk s).v1DstCheck = s.v1DstCheck := rfl
@[simp] theorem finishOk_turns (s : State) : (finishOk s).turns = s.turns := rfl
@[simp] theorem finishOk_reads (s : State) : (finishOk s).reads = s.reads := rfl
@[simp] theorem finishOk_draws (s : State) : (finishOk s).draws = s.draws := rfl

/-! ### raiseFault -/

@[simp] theorem raiseFault_runState (k : FaultKind) (s : State) : (raiseFault k s).runState = .doneErr := rfl
@[simp] theorem raiseFault_errCode (k : FaultKind) (s : State) : (raiseFault k s).errCode = k.code := rfl
@[simp] theorem raiseFault_alg (k : FaultKind) (s : State) : (raiseFault k s).alg = s.alg := rfl
@[simp] theorem raiseFault_irqEn (k : FaultKind) (s : State) : (raiseFault k s).irqEn = s.irqEn := rfl
@[simp] theorem raiseFault_srcLen (k : FaultKind) (s : State) : (raiseFault k s).srcLen = s.srcLen := rfl
@[simp] theorem raiseFault_dstCount (k : FaultKind) (s : State) : (raiseFault k s).dstCount = s.dstPos := rfl
@[simp] theorem raiseFault_srcCount (k : FaultKind) (s : State) : (raiseFault k s).srcCount = s.srcPos := rfl
@[simp] theorem raiseFault_srcPos (k : FaultKind) (s : State) : (raiseFault k s).srcPos = s.srcPos := rfl
@[simp] theorem raiseFault_dstPos (k : FaultKind) (s : State) : (raiseFault k s).dstPos = s.dstPos := rfl
@[simp] theorem raiseFault_srcBudget (k : FaultKind) (s : State) : (raiseFault k s).srcBudget = s.srcBudget := rfl
@[simp] theorem raiseFault_dstBudget (k : FaultKind) (s : State) : (raiseFault k s).dstBudget = s.dstBudget := rfl
@[simp] theorem raiseFault_srcLenRun (k : FaultKind) (s : State) : (raiseFault k s).srcLenRun = s.srcLenRun := rfl
@[simp] theorem raiseFault_algRun (k : FaultKind) (s : State) : (raiseFault k s).algRun = s.algRun := rfl
@[simp] theorem raiseFault_latches (k : FaultKind) (s : State) : (raiseFault k s).latches = s.latches := rfl
@[simp] theorem raiseFault_inp (k : FaultKind) (s : State) : (raiseFault k s).inp = s.inp := rfl
@[simp] theorem raiseFault_out (k : FaultKind) (s : State) : (raiseFault k s).out = s.out := rfl
@[simp] theorem raiseFault_v1DstCheck (k : FaultKind) (s : State) : (raiseFault k s).v1DstCheck = s.v1DstCheck := rfl
@[simp] theorem raiseFault_turns (k : FaultKind) (s : State) : (raiseFault k s).turns = s.turns := rfl
@[simp] theorem raiseFault_reads (k : FaultKind) (s : State) : (raiseFault k s).reads = s.reads := rfl
@[simp] theorem raiseFault_draws (k : FaultKind) (s : State) : (raiseFault k s).draws = s.draws := rfl

/-! ### clearRun -/

@[simp] theorem clearRun_runState (s : State) : (clearRun s).runState = .idle := rfl
@[simp] theorem clearRun_errCode (s : State) : (clearRun s).errCode = 0 := rfl
@[simp] theorem clearRun_alg (s : State) : (clearRun s).alg = s.alg := rfl
@[simp] theorem clearRun_irqEn (s : State) : (clearRun s).irqEn = s.irqEn := rfl
@[simp] theorem clearRun_srcLen (s : State) : (clearRun s).srcLen = s.srcLen := rfl
@[simp] theorem clearRun_dstCount (s : State) : (clearRun s).dstCount = s.dstCount := rfl
@[simp] theorem clearRun_srcCount (s : State) : (clearRun s).srcCount = s.srcCount := rfl
@[simp] theorem clearRun_srcPos (s : State) : (clearRun s).srcPos = s.srcPos := rfl
@[simp] theorem clearRun_dstPos (s : State) : (clearRun s).dstPos = s.dstPos := rfl
@[simp] theorem clearRun_srcBudget (s : State) : (clearRun s).srcBudget = s.srcBudget := rfl
@[simp] theorem clearRun_dstBudget (s : State) : (clearRun s).dstBudget = s.dstBudget := rfl
@[simp] theorem clearRun_srcLenRun (s : State) : (clearRun s).srcLenRun = s.srcLenRun := rfl
@[simp] theorem clearRun_algRun (s : State) : (clearRun s).algRun = s.algRun := rfl
@[simp] theorem clearRun_latches (s : State) : (clearRun s).latches = s.latches := rfl
@[simp] theorem clearRun_inp (s : State) : (clearRun s).inp = s.inp := rfl
@[simp] theorem clearRun_out (s : State) : (clearRun s).out = s.out := rfl
@[simp] theorem clearRun_v1DstCheck (s : State) : (clearRun s).v1DstCheck = s.v1DstCheck := rfl
@[simp] theorem clearRun_turns (s : State) : (clearRun s).turns = s.turns := rfl
@[simp] theorem clearRun_reads (s : State) : (clearRun s).reads = s.reads := rfl
@[simp] theorem clearRun_draws (s : State) : (clearRun s).draws = s.draws := rfl

/-! ### consume -/

@[simp] theorem consume_runState (k : Nat) (s : State) : (consume k s).runState = s.runState := rfl
@[simp] theorem consume_errCode (k : Nat) (s : State) : (consume k s).errCode = s.errCode := rfl
@[simp] theorem consume_alg (k : Nat) (s : State) : (consume k s).alg = s.alg := rfl
@[simp] theorem consume_irqEn (k : Nat) (s : State) : (consume k s).irqEn = s.irqEn := rfl
@[simp] theorem consume_srcLen (k : Nat) (s : State) : (consume k s).srcLen = s.srcLen := rfl
@[simp] theorem consume_dstCount (k : Nat) (s : State) : (consume k s).dstCount = s.dstCount := rfl
@[simp] theorem consume_srcCount (k : Nat) (s : State) : (consume k s).srcCount = s.srcCount := rfl
@[simp] theorem consume_srcPos (k : Nat) (s : State) : (consume k s).srcPos = s.srcPos + BitVec.ofNat 13 k := rfl
@[simp] theorem consume_dstPos (k : Nat) (s : State) : (consume k s).dstPos = s.dstPos := rfl
@[simp] theorem consume_srcBudget (k : Nat) (s : State) : (consume k s).srcBudget = s.srcBudget - BitVec.ofNat 13 k := rfl
@[simp] theorem consume_dstBudget (k : Nat) (s : State) : (consume k s).dstBudget = s.dstBudget := rfl
@[simp] theorem consume_srcLenRun (k : Nat) (s : State) : (consume k s).srcLenRun = s.srcLenRun := rfl
@[simp] theorem consume_algRun (k : Nat) (s : State) : (consume k s).algRun = s.algRun := rfl
@[simp] theorem consume_latches (k : Nat) (s : State) : (consume k s).latches = s.latches := rfl
@[simp] theorem consume_inp (k : Nat) (s : State) : (consume k s).inp = s.inp := rfl
@[simp] theorem consume_out (k : Nat) (s : State) : (consume k s).out = s.out := rfl
@[simp] theorem consume_v1DstCheck (k : Nat) (s : State) : (consume k s).v1DstCheck = s.v1DstCheck := rfl
@[simp] theorem consume_turns (k : Nat) (s : State) : (consume k s).turns = s.turns := rfl
@[simp] theorem consume_reads (k : Nat) (s : State) : (consume k s).reads = s.reads := rfl
@[simp] theorem consume_draws (k : Nat) (s : State) : (consume k s).draws = s.draws := rfl

/-! ### latch -/

@[simp] theorem latch_runState (i : Instr) (s : State) : (s.latch i).runState = s.runState := rfl
@[simp] theorem latch_errCode (i : Instr) (s : State) : (s.latch i).errCode = s.errCode := rfl
@[simp] theorem latch_alg (i : Instr) (s : State) : (s.latch i).alg = s.alg := rfl
@[simp] theorem latch_irqEn (i : Instr) (s : State) : (s.latch i).irqEn = s.irqEn := rfl
@[simp] theorem latch_srcLen (i : Instr) (s : State) : (s.latch i).srcLen = s.srcLen := rfl
@[simp] theorem latch_dstCount (i : Instr) (s : State) : (s.latch i).dstCount = s.dstCount := rfl
@[simp] theorem latch_srcCount (i : Instr) (s : State) : (s.latch i).srcCount = s.srcCount := rfl
@[simp] theorem latch_srcPos (i : Instr) (s : State) : (s.latch i).srcPos = s.srcPos := rfl
@[simp] theorem latch_dstPos (i : Instr) (s : State) : (s.latch i).dstPos = s.dstPos := rfl
@[simp] theorem latch_srcBudget (i : Instr) (s : State) : (s.latch i).srcBudget = s.srcBudget := rfl
@[simp] theorem latch_dstBudget (i : Instr) (s : State) : (s.latch i).dstBudget = s.dstBudget := rfl
@[simp] theorem latch_srcLenRun (i : Instr) (s : State) : (s.latch i).srcLenRun = s.srcLenRun := rfl
@[simp] theorem latch_algRun (i : Instr) (s : State) : (s.latch i).algRun = s.algRun := rfl
@[simp] theorem latch_latches (i : Instr) (s : State) : (s.latch i).latches = latchFields i s.latches := rfl
@[simp] theorem latch_inp (i : Instr) (s : State) : (s.latch i).inp = s.inp := rfl
@[simp] theorem latch_out (i : Instr) (s : State) : (s.latch i).out = s.out := rfl
@[simp] theorem latch_v1DstCheck (i : Instr) (s : State) : (s.latch i).v1DstCheck = s.v1DstCheck := rfl
@[simp] theorem latch_turns (i : Instr) (s : State) : (s.latch i).turns = s.turns := rfl
@[simp] theorem latch_reads (i : Instr) (s : State) : (s.latch i).reads = s.reads := rfl
@[simp] theorem latch_draws (i : Instr) (s : State) : (s.latch i).draws = s.draws := rfl

/-! ### failedWith -/

@[simp] theorem failedWith_runState (c : BitVec 3) (s : State) : (s.failedWith c).runState = .doneErr := rfl
@[simp] theorem failedWith_errCode (c : BitVec 3) (s : State) : (s.failedWith c).errCode = c := rfl
@[simp] theorem failedWith_alg (c : BitVec 3) (s : State) : (s.failedWith c).alg = s.alg := rfl
@[simp] theorem failedWith_irqEn (c : BitVec 3) (s : State) : (s.failedWith c).irqEn = s.irqEn := rfl
@[simp] theorem failedWith_srcLen (c : BitVec 3) (s : State) : (s.failedWith c).srcLen = s.srcLen := rfl
@[simp] theorem failedWith_dstCount (c : BitVec 3) (s : State) : (s.failedWith c).dstCount = s.dstPos := rfl
@[simp] theorem failedWith_srcCount (c : BitVec 3) (s : State) : (s.failedWith c).srcCount = s.srcPos := rfl
@[simp] theorem failedWith_srcPos (c : BitVec 3) (s : State) : (s.failedWith c).srcPos = s.srcPos := rfl
@[simp] theorem failedWith_dstPos (c : BitVec 3) (s : State) : (s.failedWith c).dstPos = s.dstPos := rfl
@[simp] theorem failedWith_srcBudget (c : BitVec 3) (s : State) : (s.failedWith c).srcBudget = s.srcBudget := rfl
@[simp] theorem failedWith_dstBudget (c : BitVec 3) (s : State) : (s.failedWith c).dstBudget = s.dstBudget := rfl
@[simp] theorem failedWith_srcLenRun (c : BitVec 3) (s : State) : (s.failedWith c).srcLenRun = s.srcLenRun := rfl
@[simp] theorem failedWith_algRun (c : BitVec 3) (s : State) : (s.failedWith c).algRun = s.algRun := rfl
@[simp] theorem failedWith_latches (c : BitVec 3) (s : State) : (s.failedWith c).latches = s.latches := rfl
@[simp] theorem failedWith_inp (c : BitVec 3) (s : State) : (s.failedWith c).inp = s.inp := rfl
@[simp] theorem failedWith_out (c : BitVec 3) (s : State) : (s.failedWith c).out = s.out := rfl
@[simp] theorem failedWith_v1DstCheck (c : BitVec 3) (s : State) : (s.failedWith c).v1DstCheck = s.v1DstCheck := rfl
@[simp] theorem failedWith_turns (c : BitVec 3) (s : State) : (s.failedWith c).turns = s.turns := rfl
@[simp] theorem failedWith_reads (c : BitVec 3) (s : State) : (s.failedWith c).reads = s.reads := rfl
@[simp] theorem failedWith_draws (c : BitVec 3) (s : State) : (s.failedWith c).draws = s.draws := rfl

/-! ### afterToken -/

@[simp] theorem afterToken_runState (j k : Nat) (m : Memory) (s : State) : (s.afterToken j k m).runState = s.runState := rfl
@[simp] theorem afterToken_errCode (j k : Nat) (m : Memory) (s : State) : (s.afterToken j k m).errCode = s.errCode := rfl
@[simp] theorem afterToken_alg (j k : Nat) (m : Memory) (s : State) : (s.afterToken j k m).alg = s.alg := rfl
@[simp] theorem afterToken_irqEn (j k : Nat) (m : Memory) (s : State) : (s.afterToken j k m).irqEn = s.irqEn := rfl
@[simp] theorem afterToken_srcLen (j k : Nat) (m : Memory) (s : State) : (s.afterToken j k m).srcLen = s.srcLen := rfl
@[simp] theorem afterToken_dstCount (j k : Nat) (m : Memory) (s : State) : (s.afterToken j k m).dstCount = s.dstCount := rfl
@[simp] theorem afterToken_srcCount (j k : Nat) (m : Memory) (s : State) : (s.afterToken j k m).srcCount = s.srcCount := rfl
@[simp] theorem afterToken_srcPos (j k : Nat) (m : Memory) (s : State) : (s.afterToken j k m).srcPos = BitVec.ofNat 13 (s.srcPos.toNat + j) := rfl
@[simp] theorem afterToken_dstPos (j k : Nat) (m : Memory) (s : State) : (s.afterToken j k m).dstPos = BitVec.ofNat 13 (s.dstPos.toNat + k) := rfl
@[simp] theorem afterToken_srcBudget (j k : Nat) (m : Memory) (s : State) : (s.afterToken j k m).srcBudget = BitVec.ofNat 13 (s.srcBudget.toNat - j) := rfl
@[simp] theorem afterToken_dstBudget (j k : Nat) (m : Memory) (s : State) : (s.afterToken j k m).dstBudget = BitVec.ofNat 13 (s.dstBudget.toNat - k) := rfl
@[simp] theorem afterToken_srcLenRun (j k : Nat) (m : Memory) (s : State) : (s.afterToken j k m).srcLenRun = s.srcLenRun := rfl
@[simp] theorem afterToken_algRun (j k : Nat) (m : Memory) (s : State) : (s.afterToken j k m).algRun = s.algRun := rfl
@[simp] theorem afterToken_latches (j k : Nat) (m : Memory) (s : State) : (s.afterToken j k m).latches = s.latches := rfl
@[simp] theorem afterToken_inp (j k : Nat) (m : Memory) (s : State) : (s.afterToken j k m).inp = s.inp := rfl
@[simp] theorem afterToken_out (j k : Nat) (m : Memory) (s : State) : (s.afterToken j k m).out = m := rfl
@[simp] theorem afterToken_v1DstCheck (j k : Nat) (m : Memory) (s : State) : (s.afterToken j k m).v1DstCheck = s.v1DstCheck := rfl
@[simp] theorem afterToken_turns (j k : Nat) (m : Memory) (s : State) : (s.afterToken j k m).turns = s.turns := rfl
@[simp] theorem afterToken_reads (j k : Nat) (m : Memory) (s : State) : (s.afterToken j k m).reads = s.reads := rfl
@[simp] theorem afterToken_draws (j k : Nat) (m : Memory) (s : State) : (s.afterToken j k m).draws = s.draws := rfl

/-! ### What the updates say together -/

theorem raiseFault_eq_failedWith (k : FaultKind) (s : State) : raiseFault k s = s.failedWith k.code := rfl

/-- Consuming bytes that the budget covers leaves the registers of `afterToken`. -/
theorem consume_eq_afterToken (j : Nat) (s : State) (hj : j ≤ s.srcBudget.toNat) : consume j s = s.afterToken j 0 s.out := by
  have e1 : s.srcPos + BitVec.ofNat 13 j = BitVec.ofNat 13 (s.srcPos.toNat + j) := by
    apply BitVec.eq_of_toNat_eq; simp
  have e2 : s.srcBudget - BitVec.ofNat 13 j = BitVec.ofNat 13 (s.srcBudget.toNat - j) := by
    apply BitVec.eq_of_toNat_eq
    have := s.srcBudget.isLt
    simp only [BitVec.toNat_sub, BitVec.toNat_ofNat]
    omega
  simp only [consume, State.afterToken, e1, e2, Nat.add_zero, Nat.sub_zero, BitVec.ofNat_toNat, BitVec.setWidth_eq]

end Sys2Proof.Machine
end

