-- ==== Sys2Proof/Laws/Ops.lean ====
section
/-! SUPPORT. One lemma per shared operation that says what it can do: the checks, the byte transfers, check-then-commit. -/

namespace Sys2Proof.Machine

/-! ### Checks -/

@[simp] theorem failure_src (s : State) (k : Nat) (kind : FaultKind) :
    (Check.src k kind).failure s = if s.srcBudget.toNat < k then some kind else none := rfl

@[simp] theorem failure_dst (s : State) (k : Nat) :
    (Check.dst k).failure s = if s.dstBudget.toNat < k then some .destinationOverrun else none := rfl

/-- The validator's two conditions (R136). -/
theorem backRefValid_iff (off len w : Nat) : backRefValid off len w = true ↔ off ≤ w ∧ (off = 0 → len = 0) := by
  by_cases h1 : w < off
  · simp only [backRefValid, if_pos h1]
    simp; omega
  · by_cases h2 : off = 0 <;> by_cases h3 : len = 0 <;> simp [backRefValid, h1, h2, h3] <;> omega

theorem failure_backRef (s : State) (off len w : Nat) :
    (Check.backRef off len w).failure s =
      if off ≤ w ∧ (off = 0 → len = 0) then none else some .invalidBackReference := by
  simp only [Check.failure, backRefValid_iff]

/-- No check fails exactly if each of them passes (R140). -/
theorem firstFailure_none {s : State} {cs : List Check} :
    firstFailure s cs = none ↔ ∀ c ∈ cs, c.failure s = none := by
  induction cs with
  | nil => simp [firstFailure]
  | cons c cs ih =>
    simp only [firstFailure, List.forall_mem_cons]
    cases h : c.failure s <;> simp [ih]

/-- The first failure is that of one of the checks. -/
theorem firstFailure_some {s : State} {cs : List Check} {k : FaultKind} (h : firstFailure s cs = some k) :
    ∃ c ∈ cs, c.failure s = some k := by
  induction cs with
  | nil => simp [firstFailure] at h
  | cons c cs ih =>
    simp only [firstFailure] at h
    cases hc : c.failure s with
    | some k' => rw [hc] at h; exact ⟨c, List.mem_cons_self, by rw [hc]; exact h⟩
    | none =>
      rw [hc] at h
      obtain ⟨c', hm, e⟩ := ih h
      exact ⟨c', List.mem_cons_of_mem _ hm, e⟩

@[simp] theorem firstFailure_nil (s : State) : firstFailure s [] = none := rfl

/-- The first check that fails wins (R224). -/
theorem firstFailure_cons (s : State) (c : Check) (cs : List Check) :
    firstFailure s (c :: cs) = (c.failure s).or (firstFailure s cs) := by
  simp only [firstFailure]
  cases c.failure s <;> rfl

/-! ### Check, then commit -/

/-- What a token can answer: the fault of a check, with nothing committed, or its commit (R140). -/
theorem runToken_next {checks : List Check} {commit : State → Except Fault State} {s t : State}
    (h : runToken checks commit s = .next t) :
    (∃ k, firstFailure s checks = some k ∧ t = raiseFault k s) ∨ (firstFailure s checks = none ∧ commit s = .ok t) := by
  simp only [runToken] at h
  split at h
  · next k e => exact .inl ⟨k, e, by injection h with h; exact h.symm⟩
  · next e =>
    split at h
    · next t' e' => exact .inr ⟨e, by injection h with h; rw [e', h]⟩
    · cases h

theorem runToken_fails {checks : List Check} {commit : State → Except Fault State} {s : State} {k : FaultKind}
    (h : firstFailure s checks = some k) : runToken checks commit s = .next (raiseFault k s) := by
  simp [runToken, h]

theorem runToken_commits {checks : List Check} {commit : State → Except Fault State} {s t : State}
    (h : firstFailure s checks = none) (hc : commit s = .ok t) : runToken checks commit s = .next t := by
  simp [runToken, h, hc]

/-- The model stops in a token only through its commit. -/
theorem runToken_fault {checks : List Check} {commit : State → Except Fault State} {s : State} {f : Fault}
    (h : runToken checks commit s = .fault f) : firstFailure s checks = none ∧ commit s = .error f := by
  simp only [runToken] at h
  split at h
  · cases h
  · next e =>
    split at h
    · cases h
    · next f' e' => exact ⟨e, by injection h with h; rw [e', h]⟩

/-- Where every check passes, a token stops the model as its commit does. -/
theorem runToken_stops {checks : List Check} {commit : State → Except Fault State} {s : State} {f : Fault}
    (h : firstFailure s checks = none) (hc : commit s = .error f) : runToken checks commit s = .fault f := by
  simp [runToken, h, hc]

/-- A token is never refused. -/
theorem runToken_not_refused (checks : List Check) (commit : State → Except Fault State) (s : State) (r : Refusal) :
    runToken checks commit s ≠ .refused r := by
  simp only [runToken]
  split
  · simp
  · split <;> simp

/-! ### Byte transfers -/

/-- `m` is the `OUT` of `s` after a copy of `k` bytes to the destination cursor. -/
structure Wrote (s : State) (k : Nat) (m : Memory) : Prop where
  inside : 0 < k → s.dstPos.toNat + k ≤ pageSize
  wf : s.out.wf → m.wf
  known : ∀ a, s.dstPos.toNat ≤ a → a < s.dstPos.toNat + k → (m.read a).isSome = true
  outside : s.keepsOutside k m

/-- Advancing the destination is the destination half of `afterToken`. -/
theorem advance_eq_afterToken (k : Nat) (m : Memory) (s : State) (hk : k ≤ s.dstBudget.toNat) :
    ({ s with out := m, dstPos := s.dstPos + BitVec.ofNat 13 k, dstBudget := s.dstBudget - BitVec.ofNat 13 k } : State)
      = s.afterToken 0 k m := by
  have e1 : s.dstPos + BitVec.ofNat 13 k = BitVec.ofNat 13 (s.dstPos.toNat + k) := by
    apply BitVec.eq_of_toNat_eq; simp
  have e2 : s.dstBudget - BitVec.ofNat 13 k = BitVec.ofNat 13 (s.dstBudget.toNat - k) := by
    apply BitVec.eq_of_toNat_eq
    have := s.dstBudget.isLt
    simp only [BitVec.toNat_sub, BitVec.toNat_ofNat]
    omega
  simp only [State.afterToken, e1, e2, Nat.add_zero, Nat.sub_zero, BitVec.ofNat_toNat, BitVec.setWidth_eq]

/-- All that a transfer to the destination cursor can do. -/
theorem writeDest_ok {rd : Nat → Memory → Except Fault Byte} {k : Nat} {s t : State} (hk : k ≤ s.dstBudget.toNat)
    (h : writeDest rd k s = .ok t) : ∃ m, Wrote s k m ∧ t = s.afterToken 0 k m := by
  simp only [writeDest] at h
  split at h
  · cases h
  · next m e =>
    have w := writeRun_ok e
    simp only [Nat.add_zero] at w
    refine ⟨m, ⟨w.1, w.2.1, w.2.2.1, w.2.2.2⟩, ?_⟩
    rw [← advance_eq_afterToken k m s hk]
    exact (Except.ok.inj h).symm

/-- A transfer changes `OUT`, the destination cursor and its budget, and nothing else, from any state. -/
theorem writeDest_eq {rd : Nat → Memory → Except Fault Byte} {k : Nat} {s t : State} (h : writeDest rd k s = .ok t) :
    ∃ m, writeRun rd s.dstPos.toNat 0 k s.out = .ok m ∧
      t = { s with out := m, dstPos := s.dstPos + BitVec.ofNat 13 k, dstBudget := s.dstBudget - BitVec.ofNat 13 k } := by
  simp only [writeDest] at h
  split at h
  · cases h
  · next m e => exact ⟨m, e, (Except.ok.inj h).symm⟩

/-- A transfer completes when its loop does. -/
theorem writeDest_of_run {rd : Nat → Memory → Except Fault Byte} {k : Nat} {s : State} {m : Memory}
    (hk : k ≤ s.dstBudget.toNat) (h : writeRun rd s.dstPos.toNat 0 k s.out = .ok m) :
    writeDest rd k s = .ok (s.afterToken 0 k m) := by
  rw [← advance_eq_afterToken k m s hk]
  simp [writeDest, h]

/-- A transfer stops the model only where its loop does. -/
theorem writeDest_error {rd : Nat → Memory → Except Fault Byte} {k : Nat} {s : State} {f : Fault}
    (h : writeDest rd k s = .error f) : writeRun rd s.dstPos.toNat 0 k s.out = .error f := by
  simp only [writeDest] at h
  split at h
  · next e => injection h with h; rw [e, h]
  · cases h

/-- Two advances in a row are one. -/
theorem afterToken_afterToken (s : State) (j k j' k' : Nat) (m m' : Memory) (hs : s.srcPos.toNat + j < 2 ^ 13)
    (hd : s.dstPos.toNat + k < 2 ^ 13) :
    (s.afterToken j k m).afterToken j' k' m' = s.afterToken (j + j') (k + k') m' := by
  have a := s.srcBudget.isLt
  have b := s.dstBudget.isLt
  simp only [State.afterToken, BitVec.toNat_ofNat, Nat.mod_eq_of_lt hs, Nat.mod_eq_of_lt hd,
    Nat.mod_eq_of_lt (Nat.lt_of_le_of_lt (Nat.sub_le s.srcBudget.toNat j) a),
    Nat.mod_eq_of_lt (Nat.lt_of_le_of_lt (Nat.sub_le s.dstBudget.toNat k) b), Nat.add_assoc, Nat.sub_sub]

/-- While the cursors agree, a covered token leaves registers that agree (R21, R23). -/
theorem cursorsAgree_afterToken {s : State} {j k : Nat} {m : Memory} (h : s.cursorsAgree) (hj : j ≤ s.srcBudget.toNat)
    (hk : k ≤ s.dstBudget.toNat) :
    (s.afterToken j k m).cursorsAgree ∧ (s.afterToken j k m).srcPos.toNat = s.srcPos.toNat + j ∧
      (s.afterToken j k m).srcBudget.toNat = s.srcBudget.toNat - j ∧
      (s.afterToken j k m).dstPos.toNat = s.dstPos.toNat + k ∧
      (s.afterToken j k m).dstBudget.toNat = s.dstBudget.toNat - k := by
  obtain ⟨h1, h2, h3⟩ := h
  simp only [State.cursorsAgree, afterToken_srcPos, afterToken_srcBudget, afterToken_dstPos, afterToken_dstBudget,
    afterToken_srcLenRun, BitVec.toNat_ofNat, pageSize] at *
  omega

/-- Two transfers in a row end well only if both do. -/
theorem bind_ok {a : Except Fault State} {f : State → Except Fault State} {u : State} (h : a.bind f = .ok u) :
    ∃ x, a = .ok x ∧ f x = .ok u := by
  cases a with
  | error e => cases h
  | ok x => exact ⟨x, rfl, h⟩

end Sys2Proof.Machine
end

