-- ==== Sys2Proof/Laws/Exec.lean ====
section
/-! SUPPORT. Once for all tokens: what exec can answer. -/

namespace Sys2Proof.Machine

/-- Two advances of the source in a row are one (R96). -/
theorem consume_consume (j k : Nat) (s : State) : consume k (consume j s) = consume (j + k) s := by
  have e1 : s.srcPos + BitVec.ofNat 13 j + BitVec.ofNat 13 k = s.srcPos + BitVec.ofNat 13 (j + k) := by
    rw [BitVec.add_assoc, BitVec.ofNat_add]
  have e2 : s.srcBudget - BitVec.ofNat 13 j - BitVec.ofNat 13 k = s.srcBudget - BitVec.ofNat 13 (j + k) := by
    rw [BitVec.ofNat_add]; bv_omega
  simp only [consume, e1, e2]

/-- Consuming source bytes, then writing: the two halves of `afterToken`. -/
theorem consume_afterToken {j k : Nat} {s : State} (m : Memory) (hs : s.cursorsAgree) (hj : j ≤ s.srcBudget.toNat) :
    (consume j s).afterToken 0 k m = s.afterToken j k m := by
  obtain ⟨h1, h2, h3⟩ := hs
  simp only [pageSize] at h1 h2 h3
  rw [consume_eq_afterToken j s hj, afterToken_afterToken _ _ _ _ _ _ _ (by omega) (by omega)]
  simp

/-- All that a transfer can do after `j` source bytes were consumed. -/
theorem writeDest_consume_ok {rd : Nat → Memory → Except Fault Byte} {j k : Nat} {s t : State} (hs : s.cursorsAgree)
    (hj : j ≤ s.srcBudget.toNat) (hk : k ≤ s.dstBudget.toNat) (h : writeDest rd k (consume j s) = .ok t) :
    ∃ m, Wrote s k m ∧ t = s.afterToken j k m := by
  obtain ⟨m, w, rfl⟩ := writeDest_ok (s := consume j s) hk h
  exact ⟨m, ⟨w.inside, w.wf, w.known, w.outside⟩, consume_afterToken m hs hj⟩

/-- Two transfers in a row are one. -/
theorem Wrote.trans {s : State} {k k' : Nat} {m m' : Memory} (w : Wrote s k m)
    (h1 : 0 < k' → s.dstPos.toNat + k + k' ≤ pageSize) (h2 : m.wf → m'.wf)
    (h3 : ∀ a, s.dstPos.toNat + k ≤ a → a < s.dstPos.toNat + k + k' → (m'.read a).isSome = true)
    (h4 : ∀ a, a < s.dstPos.toNat + k ∨ s.dstPos.toNat + k + k' ≤ a → m'.read a = m.read a) : Wrote s (k + k') m' where
  inside h := by
    rcases Nat.eq_zero_or_pos k' with rfl | hk
    · exact w.inside (by omega)
    · have := h1 hk; omega
  wf h := h2 (w.wf h)
  known a l u := by
    by_cases h : a < s.dstPos.toNat + k
    · rw [h4 a (by omega)]; exact w.known a l h
    · exact h3 a (by omega) (by omega)
  outside a o := by rw [h4 a (by omega), w.outside a (by omega)]

/-- What a token can leave, at most: a fault of its own, the V1 overrun after whole repetitions, a commit, or the end of the
run (R140, R152, R204, R221). -/
inductive TokenEffect (i : Instr) (s : State) : State → Prop where
  | failed (k : FaultKind) (hk : k ≠ .badSourceLength) : TokenEffect i s (raiseFault k s)
  | overrun (k : Nat) (m : Memory) (hk : k ≤ s.dstBudget.toNat) (hm : Wrote s k m) (hv : i.grammar = .v1)
      (hp : s.v1DstCheck = .perRepetition) :
      TokenEffect i s (raiseFault .destinationOverrun (s.afterToken 0 k m))
  | committed (m : Memory) (hj : i.length ≤ s.srcBudget.toNat) (hk : i.written ≤ s.dstBudget.toNat)
      (hm : Wrote s i.written m) (he : i ≠ .endPage) : TokenEffect i s (s.afterToken i.length i.written m)
  | finished (hj : 2 ≤ s.srcBudget.toNat) (he : i = .endPage) : TokenEffect i s (finishOk (s.afterToken 2 0 s.out))

/-- The fault of a failing check is never the START action's own (R220). -/
theorem firstFailure_kind {s : State} {cs : List Check} {k : FaultKind} (h : firstFailure s cs = some k)
    (hc : ∀ c ∈ cs, ∀ j, c ≠ .src j .badSourceLength) : k ≠ .badSourceLength := by
  obtain ⟨c, hm, e⟩ := firstFailure_some h
  rintro rfl
  cases c with
  | src j kind =>
    simp only [failure_src] at e
    split at e
    · injection e with e; exact hc _ hm j (by rw [e])
    · cases e
  | dst j => simp only [failure_dst] at e; split at e <;> cases e
  | backRef off len w => rw [failure_backRef] at e; split at e <;> cases e

/-- A back-reference token of shape 1 or 3. -/
theorem runBackRef_effect {hdr nr len off : Nat} {i : Instr} {s t : State} (hs : s.cursorsAgree)
    (hl : i.length = hdr + nr) (hw : i.written = nr + len) (he : i ≠ .endPage)
    (h : runBackRef hdr nr len off s = .next t) : TokenEffect i s t := by
  rcases runToken_next h with ⟨k, e, rfl⟩ | ⟨e, hc⟩
  · exact .failed k (firstFailure_kind e (by simp))
  · simp only [firstFailure_none, List.forall_mem_cons, failure_src, failure_dst, ite_eq_right_iff, reduceCtorEq, imp_false,
      Nat.not_lt] at e
    obtain ⟨-, hj, -, -, hk, -⟩ := e
    simp only [Except.bind] at hc
    split at hc
    · cases hc
    · next u hu =>
      simp only [copyLit, consume_consume] at hu
      obtain ⟨m, w, rfl⟩ := writeDest_consume_ok hs hj (by omega) hu
      obtain ⟨-, -, -, hd, hb⟩ := cursorsAgree_afterToken (m := m) hs hj (show nr ≤ s.dstBudget.toNat by omega)
      obtain ⟨m', w', rfl⟩ := writeDest_ok (by rw [hb]; omega) hc
      have hs' := hs
      obtain ⟨h1, h2, h3⟩ := hs'
      simp only [pageSize] at h1 h2 h3
      rw [afterToken_afterToken _ _ _ _ _ _ _ (by omega) (by omega), Nat.add_zero, ← hl, ← hw]
      refine .committed m' (by omega) (by omega) ?_ he
      have w1 := w'.inside
      have w3 := w'.known
      have w4 := w'.outside
      rw [hd] at w1 w3
      simp only [State.keepsOutside, hd, afterToken_out] at w4
      rw [hw]
      exact w.trans w1 w'.wf w3 w4

/-- Once for all tokens: while the cursors agree, exec answers one of these. -/
theorem exec_effect {i : Instr} {s t : State} (hs : s.cursorsAgree) (h : exec i s = .next t) : TokenEffect i s t := by
  cases i with
  | record rep span =>
    simp only [exec, execRecord] at h
    have commit : ∀ {t}, 4 + span.toNat ≤ s.srcBudget.toNat → rep.toNat * span.toNat ≤ s.dstBudget.toNat →
        commitRecord rep.toNat span.toNat s = .ok t → TokenEffect (.record rep span) s t := by
      intro t hj hk hc
      obtain ⟨m, w, rfl⟩ := writeDest_consume_ok hs hj hk hc
      exact .committed m hj hk w (by simp)
    split at h
    · rcases runToken_next h with ⟨k, e, rfl⟩ | ⟨e, hc⟩
      · exact .failed k (firstFailure_kind e (by simp))
      · simp only [firstFailure_none, List.forall_mem_cons, failure_src, failure_dst, ite_eq_right_iff, reduceCtorEq,
          imp_false, Nat.not_lt] at e
        exact commit e.2.1 e.2.2.1 hc
    · next hp =>
      rcases runToken_next h with ⟨k, e, rfl⟩ | ⟨e, hc⟩
      · exact .failed k (firstFailure_kind e (by simp))
      · simp only [firstFailure_none, List.forall_mem_cons, failure_src, ite_eq_right_iff, reduceCtorEq, imp_false,
          Nat.not_lt] at e
        split at hc
        · next hf =>
          refine commit e.2.1 ?_ hc
          rcases hf with h0 | hf
          · simp [h0]
          · exact Nat.le_trans (Nat.mul_le_mul_right _ hf) (Nat.div_mul_le_self _ _)
        · simp only [overrunRecord] at hc
          split at hc
          · cases hc
          · next u hu =>
            have hk : s.dstBudget.toNat / span.toNat * span.toNat ≤ s.dstBudget.toNat := Nat.div_mul_le_self _ _
            obtain ⟨m, w, rfl⟩ := writeDest_ok hk hu
            injection hc with hc
            subst hc
            exact .overrun _ m hk w rfl hp
  | lit n =>
    simp only [exec, execLit] at h
    rcases runToken_next h with ⟨k, e, rfl⟩ | ⟨e, hc⟩
    · exact .failed k (firstFailure_kind e (by simp))
    · simp only [firstFailure_none, List.forall_mem_cons, failure_src, failure_dst, ite_eq_right_iff, reduceCtorEq,
        imp_false, Nat.not_lt] at e
      simp only [copyLit, consume_consume] at hc
      obtain ⟨m, w, rfl⟩ := writeDest_consume_ok hs e.1 e.2.1 hc
      exact .committed m e.1 e.2.1 w (by simp)
  | fill m v =>
    simp only [exec, execFill] at h
    rcases runToken_next h with ⟨k, e, rfl⟩ | ⟨e, hc⟩
    · exact .failed k (firstFailure_kind e (by simp))
    · simp only [firstFailure_none, List.forall_mem_cons, failure_src, failure_dst, ite_eq_right_iff, reduceCtorEq,
        imp_false, Nat.not_lt] at e
      obtain ⟨m, w, rfl⟩ := writeDest_consume_ok hs e.2.1 e.2.2.1 hc
      exact .committed m e.2.1 e.2.2.1 w (by simp)
  | endPage =>
    simp only [exec, execEndPage] at h
    rcases runToken_next h with ⟨k, e, rfl⟩ | ⟨e, hc⟩
    · exact .failed k (firstFailure_kind e (by simp))
    · simp only [firstFailure_none, List.forall_mem_cons, failure_src, ite_eq_right_iff, reduceCtorEq, imp_false,
        Nat.not_lt] at e
      injection hc with hc
      subst hc
      rw [consume_eq_afterToken 2 s e.1]
      exact .finished e.1 rfl
  | br1 nr len off => exact runBackRef_effect hs rfl rfl (by simp) h
  | br2 len off =>
    simp only [exec, execBr2] at h
    rcases runToken_next h with ⟨k, e, rfl⟩ | ⟨e, hc⟩
    · exact .failed k (firstFailure_kind e (by simp))
    · simp only [firstFailure_none, List.forall_mem_cons, failure_src, failure_dst, ite_eq_right_iff, reduceCtorEq,
        imp_false, Nat.not_lt] at e
      obtain ⟨m, w, rfl⟩ := writeDest_consume_ok hs e.1 e.2.2.1 hc
      exact .committed m e.1 e.2.2.1 w (by simp)
  | br3 nr len off => exact runBackRef_effect hs rfl rfl (by simp) h

/-- No token is refused (R106, R204). -/
theorem exec_not_refused (i : Instr) (s : State) (r : Refusal) : exec i s ≠ .refused r := by
  cases i with
  | record rep span => simp only [exec, execRecord]; split <;> exact runToken_not_refused _ _ _ _
  | lit n => simp only [exec, execLit]; exact runToken_not_refused _ _ _ _
  | fill m v => simp only [exec, execFill]; exact runToken_not_refused _ _ _ _
  | endPage => simp only [exec, execEndPage]; exact runToken_not_refused _ _ _ _
  | br1 nr len off => simp only [exec, execBr1, runBackRef]; exact runToken_not_refused _ _ _ _
  | br2 len off => simp only [exec, execBr2]; exact runToken_not_refused _ _ _ _
  | br3 nr len off => simp only [exec, execBr3, runBackRef]; exact runToken_not_refused _ _ _ _

/-- A transfer whose bytes do not depend on `OUT` completes, after `j` source bytes were consumed. -/
theorem writeDest_completes {rd : Nat → Memory → Except Fault Byte} {f : Nat → Byte} {j k : Nat} {s : State}
    (hs : s.cursorsAgree) (hj : j ≤ s.srcBudget.toNat) (hk : k ≤ s.dstBudget.toNat)
    (hrd : ∀ i m, i < k → rd i m = .ok (f i)) :
    ∃ m, writeDest rd k (consume j s) = .ok (s.afterToken j k m) ∧
      (∀ i, i < k → m.read (s.dstPos.toNat + i) = some (f i)) ∧ s.keepsOutside k m := by
  have hs' := hs
  obtain ⟨h1, h2, h3⟩ := hs'
  obtain ⟨m, e, hm⟩ := writeRun_const (rd := rd) (base := s.dstPos.toNat) (f := f) k 0 s.out
    (fun i m _ h => hrd i m (by omega)) (by omega)
  refine ⟨m, ?_, fun i h => hm i (by omega) (by omega), ?_⟩
  · rw [writeDest_of_run (s := consume j s) hk e, consume_afterToken m hs hj]
  · have := (writeRun_ok e).2.2.2
    simpa [State.keepsOutside] using this

/-- A transfer of literal bytes stops the model at the first unwritten one, `j`; `g` is the order in which they are read, in order up
to `j`. -/
theorem writeDest_stops {s t : State} {a k j : Nat} {g : Nat → Nat} (hj : j < k) (hd : t.dstPos.toNat + k ≤ pageSize)
    (hg : ∀ l, l ≤ j → g l = l) (hk : s.literalsKnown a j) (hn : s.inp.read (a + j) = none) :
    writeDest (fun i _ => readIn s.inp (a + g i)) k t = .error (.unwrittenInput (a + j)) := by
  simp only [writeDest]
  rw [writeRun_stops (j := j) (f := .unwrittenInput (a + j)) (by omega) (by omega) (by omega)
    (fun l n _ hl => by rw [hg l (by omega)]; exact ⟨_, readIn_ok (hk l hl)⟩)
    (fun n => by rw [hg j (Nat.le_refl j)]; simp [readIn, hn])]

end Sys2Proof.Machine
end

