-- ==== Sys2Proof/Laws/PerInstr.lean ====
section
/-! SUPPORT. What holds of every token as syntax, constructor by constructor: the lengths of R95 and R131. -/

namespace Sys2Proof.Laws.TokenLength

/-- A token's bytes are its fixed bytes and its literal bytes (R95), its fixed bytes are at most four, and a well-formed token
has at least two bytes (R207). -/
def Statement (i : Instr) : Prop :=
  (∀ data : List Byte, data.length = i.literalLength → (encodeToken i data).length = i.length) ∧
    1 ≤ i.fixedLength ∧ i.fixedLength ≤ 4 ∧ (i.wf = true → 2 ≤ i.length)

theorem ofAny (i : Instr) : Statement i :=
  ⟨fun data h => by simp [encodeToken, Instr.length, h], fixedLength_pos i, fixedLength_le_four i, two_le_length⟩

theorem record (rep span : BitVec 16) : Statement (.record rep span) := ofAny _
theorem lit (n : BitVec 6) : Statement (.lit n) := ofAny _
theorem fill (m v : BitVec 8) : Statement (.fill m v) := ofAny _
theorem endPage : Statement .endPage := ofAny _
theorem br1 (nr : BitVec 4) (len : BitVec 6) (off : BitVec 12) : Statement (.br1 nr len off) := ofAny _
theorem br2 (len : BitVec 6) (off : BitVec 12) : Statement (.br2 len off) := ofAny _
theorem br3 (nr : BitVec 4) (len : BitVec 6) (off : BitVec 12) : Statement (.br3 nr len off) := ofAny _

end Sys2Proof.Laws.TokenLength
end

