-- ==== Sys2Proof/Laws/Step.lean ====
section
/-! SUPPORT. Once for the fetch, the engine's step, the host's moves and the machine's step: what each can answer. -/

namespace Sys2Proof.Machine

/-! ### Fetch -/

theorem length_knownBytes_le (m : Memory) (a k : Nat) : (knownBytes m a k).length ≤ k := by
  induction k generalizing a with
  | zero => simp [knownBytes]
  | succ k ih =>
    simp only [knownBytes]
    cases m.read a with
    | none => simp
    | some b => simpa using ih (a + 1)

/-- The bytes looked at are those of the buffer. -/
theorem getElem?_knownBytes {m : Memory} {a k j : Nat} {b : Byte} (h : (knownBytes m a k)[j]? = some b) :
    m.read (a + j) = some b := by
  induction k generalizing a j with
  | zero => simp [knownBytes] at h
  | succ k ih =>
    simp only [knownBytes] at h
    cases hr : m.read a with
    | none => simp [hr] at h
    | some c =>
      rw [hr] at h
      cases j with
      | zero => simpa [hr] using h
      | succ j =>
        rw [show a + (j + 1) = a + 1 + j by omega]
        exact ih (by simpa using h)

/-- Where fewer bytes are known than were asked for, the next one is unwritten. -/
theorem knownBytes_short {m : Memory} {a k : Nat} (h : (knownBytes m a k).length < k) :
    m.read (a + (knownBytes m a k).length) = none := by
  induction k generalizing a with
  | zero => simp at h
  | succ k ih =>
    simp only [knownBytes] at h ⊢
    cases hr : m.read a with
    | none => simpa using hr
    | some b =>
      rw [hr] at h
      simp only [List.length_cons] at h ⊢
      rw [show a + ((knownBytes m (a + 1) k).length + 1) = a + 1 + (knownBytes m (a + 1) k).length by omega]
      exact ih (by omega)

/-- The bytes up to the first unwritten one, when there is one among those asked for. -/
theorem knownBytes_eq {m : Memory} {a k : Nat} {bs : List Byte} (h : ∀ j, j < bs.length → m.read (a + j) = bs[j]?)
    (hn : m.read (a + bs.length) = none) (hk : bs.length ≤ k) : knownBytes m a k = bs := by
  induction bs generalizing a k with
  | nil =>
    cases k with
    | zero => rfl
    | succ k => simp only [knownBytes, show m.read a = none from hn]
  | cons b bs ih =>
    obtain ⟨k, rfl⟩ : ∃ k', k = k' + 1 := ⟨k - 1, by simp only [List.length_cons] at hk; omega⟩
    have h0 : m.read a = some b := h 0 (by simp)
    simp only [knownBytes, h0, List.cons.injEq, true_and]
    refine ih (fun j hj => ?_) ?_ (by simpa using hk)
    · rw [show a + 1 + j = a + (j + 1) by omega, h (j + 1) (by simpa using hj)]
      rfl
    · rwa [show a + 1 + bs.length = a + (b :: bs).length by simp only [List.length_cons]; omega]

theorem length_fetchBytes_le (s : State) : s.fetchBytes.length ≤ min 4 s.srcBudget.toNat := length_knownBytes_le _ _ _

/-- Two states whose source cursor and budget agree, and whose `IN` agrees below the end of the source, fetch alike. -/
theorem knownBytes_congr {m m' : Memory} {a k : Nat} (h : ∀ j, j < k → m.read (a + j) = m'.read (a + j)) :
    knownBytes m a k = knownBytes m' a k := by
  induction k generalizing a with
  | zero => rfl
  | succ k ih =>
    have h0 := h 0 (by omega)
    simp only [Nat.add_zero] at h0
    simp only [knownBytes, ← h0]
    rw [ih fun j hj => by
      have := h (j + 1) (by omega)
      rwa [show a + (j + 1) = a + 1 + j by omega] at this]

/-- A fetched token is well formed, belongs to the run's grammar, and its fixed bytes lie inside the source (R66, R95). -/
theorem fetch_token {s : State} {i : Instr} (h : s.fetch = .token i) :
    i.wf = true ∧ i.grammar = s.algRun ∧ i.fixedLength ≤ s.srcBudget.toNat := by
  simp only [State.fetch] at h
  split at h
  · cases h
  · split at h
    · next i' rest e =>
      injection h with h
      subst h
      obtain ⟨h1, h2, h3⟩ := decode_token e
      have := length_fetchBytes_le s
      exact ⟨h1, h2, by omega⟩
    · split at h <;> cases h

/-- The model stops in a fetch only at an `IN` byte below the end of the source that nothing has written (R255). -/
theorem fetch_unwritten {s : State} {a : Nat} (h : s.fetch = .unwritten a) :
    s.srcPos.toNat ≤ a ∧ a < s.srcPos.toNat + s.srcBudget.toNat ∧ s.inp.read a = none := by
  simp only [State.fetch] at h
  split at h
  · cases h
  · split at h
    · cases h
    · next k e =>
      split at h
      · cases h
      · injection h with h
        subst h
        have := decode_needs e
        have hlt : s.fetchBytes.length < min 4 s.srcBudget.toNat := by omega
        exact ⟨by omega, by omega, knownBytes_short hlt⟩

/-- The source ends exactly when its budget is 0 (R154, R178). -/
theorem fetch_endOfSource {s : State} : s.fetch = .endOfSource ↔ s.srcBudget.toNat = 0 := by
  simp only [State.fetch]
  split
  · next h => simp [h]
  · next h =>
    split
    · simp [h]
    · split <;> simp [h]

/-! ### The engine's turn -/

@[simp] theorem engineStep_idle {s : State} (h : s.runState ≠ .run) : engineStep s = .next s := by
  unfold engineStep
  cases e : s.runState <;> simp_all

theorem engineStep_run {s : State} (h : s.runState = .run) : engineStep s = runFetched s.fetch s := by
  simp [engineStep, h]

/-- What an engine's turn can leave (R203 to R206). -/
inductive EngineEffect (s : State) : State → Prop where
  | halted (h : s.runState ≠ .run) : EngineEffect s s
  | cleanEnd (h : s.runState = .run) (ha : s.algRun = .v1) (hb : s.srcBudget.toNat = 0) : EngineEffect s (finishOk s)
  | exhausted (h : s.runState = .run) : EngineEffect s (raiseFault .sourceExhausted s)
  | token (h : s.runState = .run) (i : Instr) (hf : s.fetch = .token i) (t : State)
      (ht : TokenEffect i (s.latch i) t) : EngineEffect s t

theorem engineStep_effect {s t : State} (hs : s.runState = .run → s.cursorsAgree) (h : engineStep s = .next t) :
    EngineEffect s t := by
  by_cases hr : s.runState = .run
  · rw [engineStep_run hr] at h
    cases hf : s.fetch with
    | endOfSource =>
      simp only [hf, runFetched] at h
      split at h
      · next ha => injection h with h; subst h; exact .cleanEnd hr ha (fetch_endOfSource.mp hf)
      · injection h with h; subst h; exact .exhausted hr
    | cutShort =>
      simp only [hf, runFetched] at h
      injection h with h; subst h; exact .exhausted hr
    | unwritten a => simp [hf, runFetched] at h
    | token i =>
      simp only [hf, runFetched] at h
      exact .token hr i hf t (exec_effect (s := s.latch i) (hs hr) h)
  · rw [engineStep_idle hr] at h
    injection h with h
    subst h
    exact .halted hr

/-- The engine refuses nothing (R204). -/
theorem engineStep_not_refused (s : State) (r : Refusal) : engineStep s ≠ .refused r := by
  by_cases hr : s.runState = .run
  · rw [engineStep_run hr]
    cases s.fetch with
    | endOfSource => simp only [runFetched]; split <;> simp
    | cutShort => simp [runFetched]
    | unwritten a => simp [runFetched]
    | token i => exact exec_not_refused _ _ _
  · simp [engineStep_idle hr]

/-! ### The host's moves -/

/-- What a move of the outside world can leave. -/
inductive HostEffect (s : State) : HostAction → State → Prop where
  | write (o : PortOffset) (d : PortData) (h : s.portRefusal o d.width = none) :
      HostEffect s (.write o d) (portWrite (portPlace o) d s)
  | read (o : PortOffset) (w : PortWidth) (h : s.portRefusal o w = none) :
      HostEffect s (.read o w)
        { s with reads := (portRead (portPlace o) w s).1 :: s.reads, draws := (portRead (portPlace o) w s).2 }
  | reset : HostEffect s .reset (resetBlock s)

theorem hostStep_effect {a : HostAction} {s t : State} (h : hostStep a s = .next t) : HostEffect s a t := by
  cases a with
  | write o d =>
    simp only [hostStep, hostWrite] at h
    split at h
    · cases h
    · next e => injection h with h; subst h; exact .write o d e
  | read o w =>
    simp only [hostStep, hostRead] at h
    split at h
    · cases h
    · next e => injection h with h; subst h; exact .read o w e
  | reset =>
    simp only [hostStep] at h
    injection h with h; subst h; exact .reset

/-- A move of the outside world never stops the model by a fault. -/
theorem hostStep_not_fault (a : HostAction) (s : State) (f : Fault) : hostStep a s ≠ .fault f := by
  cases a with
  | write o d => simp only [hostStep, hostWrite]; split <;> simp
  | read o w => simp only [hostStep, hostRead]; split <;> simp
  | reset => simp [hostStep]

/-- An admitted access to a buffer is made while not BUSY, and all of it lies in that buffer (R62, R260). -/
theorem portRefusal_none {s : State} {o : PortOffset} {w : PortWidth} (h : s.portRefusal o w = none) :
    o.toNat % w.size = 0 ∧ ((portPlace o).isBuffer = true → s.busy = false) ∧
      ((portPlace o).isBuffer = false → w = .word) := by
  simp only [State.portRefusal] at h
  split at h
  · cases h
  · next h0 =>
    refine ⟨by simpa using h0, ?_, ?_⟩
    · intro hb
      rw [if_pos hb] at h
      cases hy : s.busy
      · rfl
      · simp [hy] at h
    · intro hb
      rw [if_neg (by simp [hb])] at h
      by_cases hw : w = .word
      · exact hw
      · simp [hw] at h

/-- The offsets of the two buffers (R29). -/
theorem portPlace_buffer (o : PortOffset) :
    (∀ a, portPlace o = .inp a → a = o.toNat ∧ a < 0x1000) ∧
      (∀ a, portPlace o = .out a → a + 0x1000 = o.toNat ∧ a < 0x1000) := by
  unfold portPlace
  constructor <;> (intro a h; (repeat' split at h) <;> simp_all <;> omega)

@[simp] theorem length_bytes (d : PortData) : d.bytes.length = d.width.size := by cases d <;> rfl

/-- `BUSY` is the run state RUN (R25). -/
theorem busy_iff (s : State) : s.busy = true ↔ s.runState = .run := by
  unfold State.busy
  cases s.runState <;> simp

/-! ### The machine's step -/

theorem step_nil {s : State} (h : s.turns = []) : step s = engineStep s := by simp [step, h]

theorem step_engine {s : State} {ts : List Turn} (h : s.turns = .engine :: ts) :
    step s = engineStep { s with turns := ts } := by simp [step, h]

theorem step_host {s : State} {a : HostAction} {ts : List Turn} (h : s.turns = .host a :: ts) :
    step s = hostStep a { s with turns := ts } := by simp [step, h]

/-- Whose turn it was, and what it left. -/
theorem step_effect {s t : State} (hs : s.runState = .run → s.cursorsAgree) (h : step s = .next t) :
    (∃ ts, EngineEffect { s with turns := ts } t) ∨
      (∃ a ts, s.turns = .host a :: ts ∧ HostEffect { s with turns := ts } a t) := by
  match ht : s.turns with
  | [] => rw [step_nil ht] at h; exact .inl ⟨s.turns, engineStep_effect hs h⟩
  | .engine :: ts =>
    rw [step_engine ht] at h
    exact .inl ⟨ts, engineStep_effect (s := { s with turns := ts }) hs h⟩
  | .host a :: ts => rw [step_host ht] at h; exact .inr ⟨a, ts, rfl, hostStep_effect h⟩

/-- A register access of 4 bytes at a multiple of 4 is admitted in any state (R62). -/
theorem portRefusal_register {s : State} {o : PortOffset} (h : o.toNat % 4 = 0) (hr : 0x2000 ≤ o.toNat) :
    s.portRefusal o .word = none := by
  have : (portPlace o).isBuffer = false := by
    unfold portPlace
    rw [if_neg (by omega), if_neg (by omega)]
    (repeat' split) <;> rfl
  simp [State.portRefusal, PortWidth.size, h, this]

/-- An aligned buffer access is admitted while not BUSY (R62, R260). -/
theorem portRefusal_buffer {s : State} {o : PortOffset} {w : PortWidth} (h : o.toNat % w.size = 0)
    (hr : o.toNat < 0x2000) (hb : s.busy = false) : s.portRefusal o w = none := by
  have : (portPlace o).isBuffer = true := by
    unfold portPlace
    (repeat' split) <;> rfl
  simp [State.portRefusal, h, this, hb]

end Sys2Proof.Machine
end

