-- ==== Sys2Proof/Laws/Run.lean ====
section
/-! SUPPORT. Runs of several steps: one step unfolded, and the halted machine. -/

namespace Sys2Proof.Machine

theorem coreRun_next {M : Host.Core} {s t : M.State} (n : Nat) (h : M.step s = .next t) : M.run (n + 1) s = M.run n t := by
  have e : M.run (n + 1) s = (match M.step s with
    | .next u => M.run n u
    | .fault f => .fault f
    | .refused r => .refused r) := rfl
  rw [e, h]

theorem coreRun_fault {M : Host.Core} {s : M.State} {f : M.Fault} (n : Nat) (h : M.step s = .fault f) :
    M.run (n + 1) s = .fault f := by
  have e : M.run (n + 1) s = (match M.step s with
    | .next u => M.run n u
    | .fault f => .fault f
    | .refused r => .refused r) := rfl
  rw [e, h]

theorem run_next {s t : State} (n : Nat) (h : step s = .next t) :
    Sys2Proof.core.run (n + 1) s = Sys2Proof.core.run n t := coreRun_next (M := Sys2Proof.core) n h

theorem run_fault {s : State} {f : Fault} (n : Nat) (h : step s = .fault f) :
    Sys2Proof.core.run (n + 1) s = .fault f := coreRun_fault (M := Sys2Proof.core) n h

/-- A halted machine with no move to come stays as it is (R227, R261). -/
theorem run_halted {s : State} (h : s.runState ≠ .run) (ht : s.turns = []) (n : Nat) :
    Sys2Proof.core.run n s = .next s := by
  induction n with
  | zero => rfl
  | succ n ih =>
    have e : step s = .next s := by rw [step_nil ht, engineStep_idle h]
    rw [run_next n e, ih]

end Sys2Proof.Machine
end

