-- ==== Sys2Proof/Tests/Slice0.lean ====
section
/-! SUPPORT. Tests on small states: expected results are those of spec/95_test_vectors.md (the row is named) or written out from the
encodings of spec/30_encoding.md; and a witness for the hypotheses of every statement that has some. -/

namespace Sys2Proof.Tests

open Sys2Proof.Machine

/-! ### Helpers -/

/-- A run in progress on a source of these bytes, `out` decoded so far, the source cursor at 0. -/
def running (g : Grammar) (src out : List Byte) : State :=
  { State.reset with
    runState := .run, algRun := g, srcLenRun := BitVec.ofNat 13 src.length, srcBudget := BitVec.ofNat 13 src.length,
    dstPos := BitVec.ofNat 13 out.length, dstBudget := BitVec.ofNat 13 (4096 - out.length),
    inp := Memory.writeBytes [] 0 src, out := Memory.writeBytes [] 0 out }

/-- A run with a given destination budget left and nothing known in `OUT`. -/
def nearEnd (g : Grammar) (src : List Byte) (room : Nat) : State :=
  { running g src [] with dstPos := BitVec.ofNat 13 (4096 - room), dstBudget := BitVec.ofNat 13 room }

/-- A halted block that has these turns to come. -/
def idleWith (ts : List Turn) : State := { State.reset with turns := ts }

/-- What a test looks at after one step. -/
structure Seen where
  status : RunState
  code : Nat
  srcPos : Nat
  dstPos : Nat
  dstCount : Nat
  srcCount : Nat
  out : List (Nat × Nat)
deriving DecidableEq, Repr

def seen : Outcome → Option Seen
  | .next t => some ⟨t.runState, t.errCode.toNat, t.srcPos.toNat, t.dstPos.toNat, t.dstCount.toNat, t.srcCount.toNat,
      t.out.map fun c => (c.1, c.2.toNat)⟩
  | .fault _ => none
  | .refused _ => none

/-- The register state after an answer, if it is a next state. -/
def after : Outcome → State
  | .next t => t
  | .fault _ => State.reset
  | .refused _ => State.reset

/-! ### WellFormed refuses each ill-formed term (R109) -/

theorem test_wf_lit_zero : (Instr.lit 0).wf = false := by decide
theorem test_wf_fill_zero : (Instr.fill 0 7).wf = false := by decide
theorem test_wf_br1_prefix_four : (Instr.br1 4 3 1).wf = false := by decide
theorem test_wf_br1_length_two : (Instr.br1 0 2 1).wf = false := by decide
theorem test_wf_br1_length_eleven : (Instr.br1 0 11 1).wf = false := by decide
theorem test_wf_br1_offset_512 : (Instr.br1 0 3 512).wf = false := by decide
theorem test_wf_br2_length_two : (Instr.br2 2 1).wf = false := by decide
theorem test_wf_br2_length_seven : (Instr.br2 7 1).wf = false := by decide
theorem test_wf_accepts_the_limits :
    (Instr.record 0 65535).wf = true ∧ (Instr.lit 63).wf = true ∧ (Instr.fill 255 0).wf = true ∧ Instr.endPage.wf = true ∧
    (Instr.br1 3 10 511).wf = true ∧ (Instr.br1 0 3 0).wf = true ∧ (Instr.br2 6 4095).wf = true ∧
    (Instr.br2 3 0).wf = true ∧ (Instr.br3 15 63 4095).wf = true := by decide

/-! ### Decoding: words written out bit by bit from R91, R97 to R103 -/

theorem test_decode_record :
    decode .v1 [0b00110100, 0b00010010, 0b01111000, 0b01010110] = .token (.record 0x1234 0x5678) [] := by decide
theorem test_decode_lit : decode .v2 [0b00000100, 0x11] = .token (.lit 1) [0x11] ∧
    decode .v2 [0b11111100] = .token (.lit 63) [] := by decide
theorem test_decode_fill : decode .v2 [0b00000000, 0b00000001, 0b10101011] = .token (.fill 1 0xAB) [] ∧
    decode .v2 [0b00000000, 0b11111111, 0b00000000] = .token (.fill 255 0) [] := by decide
theorem test_decode_end : decode .v2 [0b00000000, 0b00000000] = .token .endPage [] := by decide
theorem test_decode_br1 :
    decode .v2 [0b00000001, 0b00000000] = .token (.br1 0 3 0) [] ∧
    decode .v2 [0b11111101, 0b11111111] = .token (.br1 3 10 511) [] ∧
    decode .v2 [0b01111101, 0b10000000] = .token (.br1 3 10 256) [] ∧
    decode .v2 [0b10000001, 0b00000000] = .token (.br1 0 3 1) [] := by decide
theorem test_decode_br2 :
    decode .v2 [0b00000010, 0b00000000] = .token (.br2 3 0) [] ∧
    decode .v2 [0b11111110, 0b11111111] = .token (.br2 6 4095) [] ∧
    decode .v2 [0b00011010, 0b00000000] = .token (.br2 5 1) [] ∧
    decode .v2 [0b11110010, 0b11111111] = .token (.br2 3 4095) [] := by decide
theorem test_decode_br3 :
    decode .v2 [0b00000011, 0b00000000, 0b00000000] = .token (.br3 0 0 0) [] ∧
    decode .v2 [0b11000011, 0b00011111, 0b00000000] = .token (.br3 0 63 1) [] ∧
    decode .v2 [0b00000011, 0b00110001, 0b00010010] = .token (.br3 0 4 291) [] ∧
    decode .v2 [0b10001111, 0b00110001, 0b00000000] = .token (.br3 3 6 3) [] := by decide
theorem test_decode_needs : decode .v1 [1, 0, 1] = .needs 4 ∧ decode .v2 [] = .needs 1 ∧ decode .v2 [0] = .needs 2 ∧
    decode .v2 [0, 5] = .needs 3 ∧ decode .v2 [0x12] = .needs 2 ∧ decode .v2 [3, 0] = .needs 3 := by decide
theorem test_encode_br3 : encode (.br3 0 4 291) = [0x03, 0x31, 0x12] := by decide
theorem test_encode_br1 : encode (.br1 1 3 3) = [0x85, 0x01] := by decide
theorem test_decodeTableWord :
    decodeTableWord 32 0x00030002 = some (.record 2 3) ∧ decodeTableWord 8 0x04 = some (.lit 1) ∧
    decodeTableWord 24 0x5A0300 = some (.fill 3 0x5A) ∧ decodeTableWord 16 0 = some .endPage ∧
    decodeTableWord 16 0x0185 = some (.br1 1 3 3) ∧ decodeTableWord 16 0x001A = some (.br2 5 1) ∧
    decodeTableWord 24 0x123103 = some (.br3 0 4 291) := by decide

/-! ### One step of each token -/

/-- Row A: its one record. -/
theorem test_step_record : seen (step (running .v1 [0x02, 0, 3, 0, 0xAA, 0xBB, 0xCC] [])) =
    some ⟨.run, 0, 7, 6, 0, 0, [(0, 0xAA), (1, 0xBB), (2, 0xCC), (3, 0xAA), (4, 0xBB), (5, 0xCC)]⟩ := by decide
/-- Row V1-13: the source overrun is found before the destination overrun. -/
theorem test_step_record_faults : seen (step (running .v1 [0xFF, 0xFF, 0xFF, 0xFF, 0x99] [])) =
    some ⟨.doneErr, 2, 0, 0, 0, 0, []⟩ := by decide
/-- Row L-01: its first token. -/
theorem test_step_lit : seen (step (running .v2 [0x04, 0x11, 0, 0] [])) = some ⟨.run, 0, 2, 1, 0, 0, [(0, 0x11)]⟩ := by
  decide
/-- Row L-03. -/
theorem test_step_lit_faults : seen (step (running .v2 [0x08, 0x41] [])) = some ⟨.doneErr, 2, 0, 0, 0, 0, []⟩ := by decide
/-- Row C: its first token. -/
theorem test_step_fill : seen (step (running .v2 [0, 3, 0x5A, 0, 0] [])) =
    some ⟨.run, 0, 3, 3, 0, 0, [(0, 0x5A), (1, 0x5A), (2, 0x5A)]⟩ := by decide
/-- Row F-04. -/
theorem test_step_fill_faults : seen (step (running .v2 [0, 5] [])) = some ⟨.doneErr, 1, 0, 0, 0, 0, []⟩ := by decide
/-- Row E-02. -/
theorem test_step_end : seen (step (running .v2 [0, 0, 0xFF, 0xFF, 0x13] [])) = some ⟨.doneOk, 0, 2, 0, 0, 2, []⟩ := by decide
/-- Row B1-05: its second token; the offset counts the prefix. -/
theorem test_step_br1 : seen (step (running .v2 [0x05, 0x01, 0x42, 0, 0] [0x41])) =
    some ⟨.run, 0, 3, 5, 0, 0, [(0, 0x41), (1, 0x42), (2, 0x41), (3, 0x42), (4, 0x41)]⟩ := by decide
/-- Row B1-06: its second token; the prefix of a failing token is not written. -/
theorem test_step_br1_faults : seen (step (running .v2 [0x85, 0x01, 0x42, 0, 0] [0x41])) =
    some ⟨.doneErr, 4, 0, 1, 1, 0, [(0, 0x41)]⟩ := by decide
/-- Row B2-04: its second token; an overlapping copy of period 2. -/
theorem test_step_br2 : seen (step (running .v2 [0x2E, 0, 0, 0] [1, 2, 3])) =
    some ⟨.run, 0, 2, 9, 0, 0, [(0, 1), (1, 2), (2, 3), (3, 2), (4, 3), (5, 2), (6, 3), (7, 2), (8, 3)]⟩ := by decide
/-- Row B2-05: its second token; offset 0 is invalid. -/
theorem test_step_br2_faults : seen (step (running .v2 [0x02, 0, 0, 0] [1])) = some ⟨.doneErr, 4, 0, 1, 1, 0, [(0, 1)]⟩ := by
  decide
/-- Row B3-09: its first token copies its own prefix. -/
theorem test_step_br3 : seen (step (running .v2 [0x8F, 0x31, 0, 0xA0, 0xA1, 0xA2, 0, 0] [])) =
    some ⟨.run, 0, 6, 9, 0, 0, [(0, 0xA0), (1, 0xA1), (2, 0xA2), (3, 0xA0), (4, 0xA1), (5, 0xA2), (6, 0xA0), (7, 0xA1),
      (8, 0xA2)]⟩ := by decide
/-- Row B3-03: a copy of length 0 still checks its offset. -/
theorem test_step_br3_faults : seen (step (running .v2 [0x03, 0x50, 0, 0, 0] [])) = some ⟨.doneErr, 4, 0, 0, 0, 0, []⟩ := by
  decide

/-! ### The ends of a run, the host's moves -/

/-- Rows V1-01 and E-03: an empty source. -/
theorem test_empty_source : seen (step (running .v1 [] [])) = some ⟨.doneOk, 0, 0, 0, 0, 0, []⟩ ∧
    seen (step (running .v2 [] [])) = some ⟨.doneErr, 1, 0, 0, 0, 0, []⟩ := by decide
/-- Row S-01: an illegal length ends at once. -/
theorem test_bad_source_length :
    (after (step { idleWith [.host (.write 0x2000 (.word 3))] with srcLen := 0x1001 })).statusWord = 0x56 := by decide
/-- Row S-05: `SRC_LEN` keeps 13 bits. -/
theorem test_source_length_keeps_13_bits :
    (after (step (idleWith [.host (.write 0x2004 (.word 0xFFFFFFFF))]))).srcLenWord = 0x1FFF := by decide
/-- Program P4, step 5: CLEAR with `ALG = 1`, `IRQ_EN = 0`. -/
theorem test_clear :
    seen (step { idleWith [.host (.write 0x2000 (.word 0x0A))] with runState := .doneErr, errCode := 4, dstCount := 5 }) =
      some ⟨.idle, 0, 0, 0, 5, 0, []⟩ := by decide
/-- Little-endian order at the port (R61). -/
theorem test_host_write_bytes : (after (step (idleWith [.host (.write 0x1004 (.word 0x44332211))]))).out =
    [(4, 0x11), (5, 0x22), (6, 0x33), (7, 0x44)] := by decide
theorem test_host_read_word :
    (after (step { idleWith [.host (.read 0x0002 .half)] with inp := [(2, 0xCD), (3, 0xAB)] })).reads = [.half 0xABCD] := by
  decide
theorem test_misaligned_is_refused : (match step (idleWith [.host (.read 0x2002 .word)]) with
    | .refused r => some r
    | .next _ => none
    | .fault _ => none) = some .misalignedAccess := by decide

/-! ### Fetching from reset -/

/-- What a step from reset with a table word in place leaves at the destination cursor. -/
def firstStep (nbits w : Nat) : Outcome := step (State.reset.withFetchWord nbits w)

theorem test_fetch_word_lit : (after (firstStep 8 0x04)).srcPos.toNat = 2 ∧ (after (firstStep 8 0x04)).dstPos.toNat = 1 := by
  decide +kernel
theorem test_fetch_word_record : (after (firstStep 32 0x00030002)).srcPos.toNat = 7 ∧
    (after (firstStep 32 0x00030002)).dstPos.toNat = 6 := by decide +kernel
theorem test_fetch_word_end : (after (firstStep 16 0)).runState = .doneOk := by decide +kernel

/-! ### Witnesses: concrete states and operands that meet the hypotheses of each statement -/

theorem witness_FieldsAreAssembledAsTheFormatsSay :
    ((0xFC : Byte).toNat % 4 = 0 ∧ (0xFC : Byte).toNat ≠ 0) ∧ ((0x04 : Byte).toNat % 4 = 0 ∧ (0x04 : Byte).toNat ≠ 0) ∧
    ((0 : Byte).toNat = 0 ∧ (1 : Byte).toNat ≠ 0) ∧ ((0 : Byte).toNat = 0 ∧ (0 : Byte).toNat = 0) ∧
    (0xFD : Byte).toNat % 4 = 1 ∧ (0x01 : Byte).toNat % 4 = 1 ∧ (0xFE : Byte).toNat % 4 = 2 ∧ (0x02 : Byte).toNat % 4 = 2 ∧
    (0xFF : Byte).toNat % 4 = 3 ∧ (0x03 : Byte).toNat % 4 = 3 := by decide

theorem witness_EncodingFollowsTheNotation :
    (Instr.br1 3 10 511).wf = true ∧ (Instr.br1 0 3 0).wf = true ∧ (Instr.br2 6 4095).wf = true ∧
    (Instr.br2 3 0).wf = true := by decide

theorem witness_DecodeOfEncodeGivesTheToken :
    (Instr.record 65535 65535).wf = true ∧ (Instr.lit 1).wf = true ∧ (Instr.fill 1 0).wf = true ∧
    Instr.endPage.wf = true ∧ (Instr.br1 3 10 511).wf = true ∧ (Instr.br2 3 4095).wf = true ∧
    (Instr.br3 0 0 0).wf = true := by decide

theorem witness_EncodeOfDecodeGivesTheBytes :
    decode .v1 [1, 0, 0, 0, 9] = .token (.record 1 0) [9] ∧ decode .v2 [0xFE, 0xFF, 9] = .token (.br2 6 4095) [9] := by decide

/-- A record that replays two span bytes three times (row V1-05), and one with `rep = 0` whose span is unwritten. -/
theorem witness_RecordReplicatesItsSpan :
    (let s := running .v1 [3, 0, 2, 0, 1, 2] []
     s.cursorsAgree ∧ 4 + (2 : BitVec 16).toNat ≤ s.srcBudget.toNat ∧
      (3 : BitVec 16).toNat * (2 : BitVec 16).toNat ≤ s.dstBudget.toNat ∧
      s.literalsKnown (s.srcPos.toNat + 4) (2 : BitVec 16).toNat) ∧
    (let s := running .v1 [0, 0, 2, 0, 1, 2] []
     s.cursorsAgree ∧ 4 + (2 : BitVec 16).toNat ≤ s.srcBudget.toNat ∧
      (0 : BitVec 16).toNat * (2 : BitVec 16).toNat ≤ s.dstBudget.toNat) := by
  unfold State.cursorsAgree State.literalsKnown; decide

theorem witness_LiteralRunCopiesItsBytes :
    let s := running .v2 [0x04, 0x11] []
    s.cursorsAgree ∧ 1 + (1 : BitVec 6).toNat ≤ s.srcBudget.toNat ∧ (1 : BitVec 6).toNat ≤ s.dstBudget.toNat ∧
      s.literalsKnown (s.srcPos.toNat + 1) (1 : BitVec 6).toNat := by
  unfold State.cursorsAgree State.literalsKnown; decide

/-- Row F-06: the fill ends exactly at 4096. -/
theorem witness_FillWritesCopiesOfItsByte :
    let s := nearEnd .v2 [0, 16, 0x22] 16
    s.cursorsAgree ∧ 3 ≤ s.srcBudget.toNat ∧ (16 : BitVec 8).toNat ≤ s.dstBudget.toNat := by
  unfold State.cursorsAgree; decide

theorem witness_EndMarkerEndsTheRun : 2 ≤ (running .v2 [0, 0] []).srcBudget.toNat := by decide

/-- Row B1-01: `off` is all that was written, the prefix included. -/
theorem witness_ShapeOneCopiesPrefixThenBack :
    let s := running .v2 [0x85, 0x01, 0x43] [0x41, 0x42]
    s.cursorsAgree ∧ 2 + (1 : BitVec 4).toNat ≤ s.srcBudget.toNat ∧
      (1 : BitVec 4).toNat + (3 : BitVec 6).toNat ≤ s.dstBudget.toNat ∧
      (3 : BitVec 12).toNat ≤ s.dstPos.toNat + (1 : BitVec 4).toNat ∧ (3 : BitVec 12).toNat ≠ 0 ∧
      s.literalsKnown (s.srcPos.toNat + 2) (1 : BitVec 4).toNat ∧ s.out.knownBelow s.dstPos.toNat := by
  unfold State.cursorsAgree State.literalsKnown Memory.knownBelow; decide

/-- Row B2-02. -/
theorem witness_ShapeTwoCopiesBack :
    let s := running .v2 [0x32, 0x00] [1, 2, 3]
    s.cursorsAgree ∧ 2 ≤ s.srcBudget.toNat ∧ (3 : BitVec 6).toNat ≤ s.dstBudget.toNat ∧
      (3 : BitVec 12).toNat ≤ s.dstPos.toNat ∧ (3 : BitVec 12).toNat ≠ 0 ∧ s.out.knownBelow s.dstPos.toNat := by
  unfold State.cursorsAgree Memory.knownBelow; decide

/-- Row B3-09, and row B3-02 with `len = 0` and `off = 0`. -/
theorem witness_ShapeThreeCopiesPrefixThenBack :
    (let s := running .v2 [0x8F, 0x31, 0x00, 0xA0, 0xA1, 0xA2] []
     s.cursorsAgree ∧ 3 + (3 : BitVec 4).toNat ≤ s.srcBudget.toNat ∧
      (3 : BitVec 4).toNat + (6 : BitVec 6).toNat ≤ s.dstBudget.toNat ∧
      (3 : BitVec 12).toNat ≤ s.dstPos.toNat + (3 : BitVec 4).toNat ∧
      ((3 : BitVec 12).toNat = 0 → (6 : BitVec 6).toNat = 0) ∧
      s.literalsKnown (s.srcPos.toNat + 3) (3 : BitVec 4).toNat ∧ s.out.knownBelow s.dstPos.toNat) ∧
    (let s := running .v2 [0x0B, 0x00, 0x00, 9, 8] []
     s.cursorsAgree ∧ 3 + (2 : BitVec 4).toNat ≤ s.srcBudget.toNat ∧
      (2 : BitVec 4).toNat + (0 : BitVec 6).toNat ≤ s.dstBudget.toNat ∧
      (0 : BitVec 12).toNat ≤ s.dstPos.toNat + (2 : BitVec 4).toNat ∧
      ((0 : BitVec 12).toNat = 0 → (0 : BitVec 6).toNat = 0) ∧
      s.literalsKnown (s.srcPos.toNat + 3) (2 : BitVec 4).toNat ∧ s.out.knownBelow s.dstPos.toNat) := by
  unfold State.cursorsAgree State.literalsKnown Memory.knownBelow; decide

theorem witness_OverlappingCopyRepeatsThePattern :
    let s := running .v2 [] [1, 2, 3]
    1 ≤ 2 ∧ 2 ≤ s.dstPos.toNat ∧ s.dstPos.toNat + 6 ≤ pageSize ∧ s.out.knownBelow s.dstPos.toNat := by
  unfold Memory.knownBelow; decide

/-- Rows V1-06, V1-08 and V1-10. -/
theorem witness_RecordFaults :
    (running .v1 [1, 0, 1] []).srcBudget.toNat < 4 ∧
    (let s := running .v1 [1, 0, 5, 0, 0xAA, 0xBB] []
     4 ≤ s.srcBudget.toNat ∧ s.srcBudget.toNat < 4 + (5 : BitVec 16).toNat) ∧
    (let s := running .v1 [1, 16, 1, 0, 0x5A] []
     s.v1DstCheck = .wholeRecord ∧ 4 + (1 : BitVec 16).toNat ≤ s.srcBudget.toNat ∧
      s.dstBudget.toNat < (4097 : BitVec 16).toNat * (1 : BitVec 16).toNat) := by decide

/-- Row V1-10p. -/
theorem witness_RecordOverrunPerRepetition :
    let s := { running .v1 [1, 16, 1, 0, 0x5A] [] with v1DstCheck := .perRepetition }
    s.v1DstCheck = .perRepetition ∧ s.cursorsAgree ∧ 4 + (1 : BitVec 16).toNat ≤ s.srcBudget.toNat ∧
      s.dstBudget.toNat < (4097 : BitVec 16).toNat * (1 : BitVec 16).toNat ∧
      s.literalsKnown (s.srcPos.toNat + 4) (1 : BitVec 16).toNat := by
  unfold State.cursorsAgree State.literalsKnown; decide

/-- Rows L-03 and L-06. -/
theorem witness_LiteralRunFaults :
    (running .v2 [0x08, 0x41] []).srcBudget.toNat < 1 + (2 : BitVec 6).toNat ∧
    (let s := nearEnd .v2 [0x08, 1, 2] 1
     1 + (2 : BitVec 6).toNat ≤ s.srcBudget.toNat ∧ s.dstBudget.toNat < (2 : BitVec 6).toNat) := by decide

/-- Rows F-04, F-05 and F-03. -/
theorem witness_FillFaults :
    (running .v2 [0, 5] []).srcBudget.toNat < 3 ∧
    (let s := nearEnd .v2 [0, 17, 0x22] 16
     3 ≤ s.srcBudget.toNat ∧ s.dstBudget.toNat < (17 : BitVec 8).toNat) ∧
    (running .v2 [0] []).srcBudget.toNat < 2 := by decide

/-- One state for each of the six ways, at the limits of the offset: `w + 1`, and 0. -/
theorem witness_BackReferenceShapeOneFaults :
    (Instr.br1 1 3 3).wf = true ∧ (Instr.br1 1 3 0).wf = true ∧ (Instr.br1 3 3 1).wf = true ∧
    (running .v2 [0x85] [0x41]).srcBudget.toNat < 2 ∧
    (let s := running .v2 [0x85, 0x01] [0x41]
     2 ≤ s.srcBudget.toNat ∧ s.srcBudget.toNat < 2 + (1 : BitVec 4).toNat) ∧
    (let s := nearEnd .v2 [0x8D, 0x00, 1, 2, 3] 2
     2 + (3 : BitVec 4).toNat ≤ s.srcBudget.toNat ∧ s.dstBudget.toNat < (3 : BitVec 4).toNat) ∧
    (let s := running .v2 [0x85, 0x01, 0x42] [0x41]
     2 + (1 : BitVec 4).toNat ≤ s.srcBudget.toNat ∧ (1 : BitVec 4).toNat ≤ s.dstBudget.toNat ∧
      (s.dstPos.toNat + (1 : BitVec 4).toNat < (3 : BitVec 12).toNat ∨ (3 : BitVec 12).toNat = 0) ∧
      (s.dstPos.toNat + (1 : BitVec 4).toNat < (0 : BitVec 12).toNat ∨ (0 : BitVec 12).toNat = 0)) ∧
    (let s := nearEnd .v2 [0x85, 0x01, 0x42] 3
     2 + (1 : BitVec 4).toNat ≤ s.srcBudget.toNat ∧ (1 : BitVec 4).toNat ≤ s.dstBudget.toNat ∧
      (3 : BitVec 12).toNat ≤ s.dstPos.toNat + (1 : BitVec 4).toNat ∧ (3 : BitVec 12).toNat ≠ 0 ∧
      s.dstBudget.toNat < (1 : BitVec 4).toNat + (3 : BitVec 6).toNat) := by decide

/-- Rows B2-06, B2-03, B2-05 and B2-08. -/
theorem witness_BackReferenceShapeTwoFaults :
    (Instr.br2 3 4).wf = true ∧ (Instr.br2 3 0).wf = true ∧ (Instr.br2 3 1).wf = true ∧
    (running .v2 [0x12] [0x61]).srcBudget.toNat < 2 ∧
    (let s := running .v2 [0x42, 0x00] [1, 2, 3]
     2 ≤ s.srcBudget.toNat ∧ (s.dstPos.toNat < (4 : BitVec 12).toNat ∨ (4 : BitVec 12).toNat = 0) ∧
      (s.dstPos.toNat < (0 : BitVec 12).toNat ∨ (0 : BitVec 12).toNat = 0)) ∧
    (let s := nearEnd .v2 [0x12, 0x00] 2
     2 ≤ s.srcBudget.toNat ∧ (1 : BitVec 12).toNat ≤ s.dstPos.toNat ∧ (1 : BitVec 12).toNat ≠ 0 ∧
      s.dstBudget.toNat < (3 : BitVec 6).toNat) := by decide

/-- Rows B3-07, B3-08, B3-11 and B3-10 among them. -/
theorem witness_BackReferenceShapeThreeFaults :
    (running .v2 [3, 0] []).srcBudget.toNat < 3 ∧
    (let s := running .v2 [0xCB, 0x10, 0x00, 0x01] []
     3 ≤ s.srcBudget.toNat ∧ s.srcBudget.toNat < 3 + (2 : BitVec 4).toNat) ∧
    (let s := nearEnd .v2 [0xCB, 0x10, 0x00, 1, 2] 1
     3 + (2 : BitVec 4).toNat ≤ s.srcBudget.toNat ∧ s.dstBudget.toNat < (2 : BitVec 4).toNat) ∧
    (let s := running .v2 [0x07, 0x20, 0x00, 0x07] []
     3 + (1 : BitVec 4).toNat ≤ s.srcBudget.toNat ∧ (1 : BitVec 4).toNat ≤ s.dstBudget.toNat ∧
      (s.dstPos.toNat + (1 : BitVec 4).toNat < (2 : BitVec 12).toNat ∨
        ((2 : BitVec 12).toNat = 0 ∧ 0 < (0 : BitVec 6).toNat)) ∧
      (s.dstPos.toNat + (1 : BitVec 4).toNat < (0 : BitVec 12).toNat ∨
        ((0 : BitVec 12).toNat = 0 ∧ 0 < (4 : BitVec 6).toNat))) ∧
    (let s := nearEnd .v2 [0x03, 0x11, 0x00] 3
     3 + (0 : BitVec 4).toNat ≤ s.srcBudget.toNat ∧ (0 : BitVec 4).toNat ≤ s.dstBudget.toNat ∧
      (1 : BitVec 12).toNat ≤ s.dstPos.toNat + (0 : BitVec 4).toNat ∧
      ((1 : BitVec 12).toNat = 0 → (4 : BitVec 6).toNat = 0) ∧
      s.dstBudget.toNat < (0 : BitVec 4).toNat + (4 : BitVec 6).toNat) := by decide

/-- exec answers a next state for each token, and with and without an error. -/
theorem witness_TokensLeaveTheRestAlone :
    (seen (exec (.record 2 1) (running .v1 [2, 0, 1, 0, 9] []))).isSome = true ∧
    (seen (exec (.lit 1) (running .v2 [4, 9] []))).isSome = true ∧
    (seen (exec (.fill 1 9) (running .v2 [0, 1, 9] []))).isSome = true ∧
    (seen (exec .endPage (running .v2 [0, 0] []))).isSome = true ∧
    (seen (exec (.br1 0 3 1) (running .v2 [0x81, 0] [9]))).isSome = true ∧
    (seen (exec (.br2 3 1) (running .v2 [0x12, 0] [9]))).isSome = true ∧
    (seen (exec (.br3 0 4 1) (running .v2 [0x03, 0x11, 0] [9]))).isSome = true ∧
    (seen (exec (.br3 0 4 1) (running .v2 [0x03, 0x11, 0] []))).isSome = true := by decide

theorem witness_SourceAdvancesByTheTokenLength :
    (running .v2 [4, 9] []).runState = .run ∧ (running .v2 [4, 9] []).cursorsAgree ∧
    (after (exec (.lit 1) (running .v2 [4, 9] []))).err = false ∧
    (after (exec (.lit 2) (running .v2 [8, 9] []))).err = true ∧
    (running .v2 [8, 9] []).v1DstCheck = .wholeRecord ∧ (running .v2 [8, 9] []).cursorsAgree ∧
    (Instr.lit 2).grammar = .v2 ∧
    (let s := { running .v1 [1, 0, 5, 0, 9] [] with v1DstCheck := .perRepetition }
     s.runState = .run ∧ s.cursorsAgree ∧ (after (exec (.record 1 5) s)).err = true ∧
      (after (exec (.record 1 5) s)).errCode ≠ 3) := by
  unfold State.cursorsAgree; decide

theorem witness_StepRunsTheDecodedToken :
    (let s := running .v2 [4, 9] []
     s.runState = .run ∧ 0 < s.srcBudget.toNat ∧ decode s.algRun s.fetchBytes = .token (.lit 1) [9] ∧ s.turns = []) ∧
    (let s := { running .v1 [1, 0, 0, 0] [] with turns := [.engine] }
     s.runState = .run ∧ 0 < s.srcBudget.toNat ∧ decode s.algRun s.fetchBytes = .token (.record 1 0) [] ∧
      s.turns = .engine :: []) := by decide

theorem witness_StoredTokenIsRun :
    let s := running .v2 [0x03, 0x11, 0x00] [9]
    s.runState = .run ∧ s.turns = [] ∧ (Instr.br3 0 4 1).wf = true ∧ (Instr.br3 0 4 1).grammar = s.algRun ∧
      (Instr.br3 0 4 1).fixedLength ≤ s.srcBudget.toNat ∧
      ∀ j, j < (Instr.br3 0 4 1).fixedLength → s.inp.read (s.srcPos.toNat + j) = (encode (.br3 0 4 1))[j]? := by decide

theorem witness_RecordRunSucceedsExactlyAtTheEnd :
    (let s := running .v1 [] []
     s.runState = .run ∧ s.turns = [] ∧ s.algRun = .v1 ∧ s.srcBudget.toNat = 0 ∧ (after (step s)).runState = .doneOk ∧
      s.cursorsAgree) ∧
    (State.reset.turns = [] ∧ State.reset.alg = .v1 ∧ State.reset.srcLen = 0) := by
  unfold State.cursorsAgree; decide

theorem witness_TokenRunSucceedsOnlyByTheEndMarker :
    (let s := running .v2 [] []
     s.runState = .run ∧ s.turns = [] ∧ s.algRun = .v2 ∧ s.srcBudget.toNat = 0 ∧ s.cursorsAgree) ∧
    (let s := running .v2 [0, 0] []
     s.runState = .run ∧ s.turns = [] ∧ s.algRun = .v2 ∧ (after (step s)).runState = .doneOk) ∧
    (let s := { State.reset with alg := .v2 }
     s.turns = [] ∧ s.alg = .v2 ∧ s.srcLen = 0) := by
  unfold State.cursorsAgree; decide

/-- One, two and three bytes of a V1 header; a V2 control byte alone; `03 00`; `00 05`. -/
theorem witness_CutShortTokenIsSourceExhausted :
    (let s := running .v1 [1] []
     s.runState = .run ∧ s.turns = [] ∧ s.algRun = .v1 ∧ 1 ≤ s.srcBudget.toNat ∧ s.srcBudget.toNat ≤ 3) ∧
    (let s := running .v1 [1, 0, 1] []
     1 ≤ s.srcBudget.toNat ∧ s.srcBudget.toNat ≤ 3) ∧
    (let s := running .v2 [0x12] []
     s.runState = .run ∧ s.turns = [] ∧ s.algRun = .v2 ∧ s.inp.read s.srcPos.toNat = some 0x12 ∧ s.srcBudget.toNat = 1 ∧
      ((0x12 : Byte).toNat % 4 ≠ 0 ∨ (0x12 : Byte).toNat = 0)) ∧
    (let s := running .v2 [0x03, 0x00] []
     s.inp.read s.srcPos.toNat = some 0x03 ∧ s.srcBudget.toNat = 2 ∧ (0x03 : Byte).toNat % 4 = 3) ∧
    (let s := running .v2 [0x00, 0x05] []
     s.inp.read s.srcPos.toNat = some 0 ∧ s.srcBudget.toNat = 2 ∧ (0 : Byte).toNat = 0 ∧
      s.inp.read (s.srcPos.toNat + 1) = some 5 ∧ (5 : Byte) ≠ 0) := by decide

/-- Fixed bytes: the first and the last of a V1 header, a V2 control byte, the second and the third byte of `FILL`. -/
theorem witness_UnwrittenInputStopsTheModel_fixed :
    (let s := { running .v1 [1, 0, 0, 0] [] with inp := [] }
     s.runState = .run ∧ s.turns = [] ∧ s.cursorsAgree ∧ s.inp.read s.srcPos.toNat = none ∧
      decode s.algRun [] = .needs 4 ∧ 4 ≤ s.srcBudget.toNat) ∧
    (let s := { running .v1 [1, 0, 0, 0] [] with inp := [(0, 1), (1, 0), (2, 0)] }
     s.cursorsAgree ∧ (∀ j, j < 3 → s.inp.read (s.srcPos.toNat + j) = [(1 : Byte), 0, 0][j]?) ∧
      s.inp.read (s.srcPos.toNat + 3) = none ∧ decode s.algRun [1, 0, 0] = .needs 4 ∧ 4 ≤ s.srcBudget.toNat) ∧
    (let s := { running .v2 [4] [] with inp := [] }
     s.runState = .run ∧ s.turns = [] ∧ s.cursorsAgree ∧ s.inp.read s.srcPos.toNat = none ∧
      decode s.algRun [] = .needs 1 ∧ 1 ≤ s.srcBudget.toNat) ∧
    (let s := { running .v2 [0, 0] [] with inp := [(0, 0)] }
     s.cursorsAgree ∧ (∀ j, j < 1 → s.inp.read (s.srcPos.toNat + j) = [(0 : Byte)][j]?) ∧
      s.inp.read (s.srcPos.toNat + 1) = none ∧ decode s.algRun [0] = .needs 2 ∧ 2 ≤ s.srcBudget.toNat) ∧
    (let s := { running .v2 [0, 5, 9] [] with inp := [(0, 0), (1, 5)] }
     s.cursorsAgree ∧ (∀ j, j < 2 → s.inp.read (s.srcPos.toNat + j) = [(0 : Byte), 5][j]?) ∧
      s.inp.read (s.srcPos.toNat + 2) = none ∧ decode s.algRun [0, 5] = .needs 3 ∧ 3 ≤ s.srcBudget.toNat) := by
  unfold State.cursorsAgree; decide

/-- Literal bytes: the last span byte of a record, the first one of a record that overruns after one repetition, the last literal of
`LIT`, and a prefix byte of `BR1` and of `BR3`. -/
theorem witness_UnwrittenInputStopsTheModel_literals :
    (let s := { running .v1 [1, 0, 2, 0, 7, 8] [] with inp := [(0, 1), (1, 0), (2, 2), (3, 0), (4, 7)] }
     s.runState = .run ∧ s.turns = [] ∧ s.cursorsAgree ∧ decode s.algRun s.fetchBytes = .token (.record 1 2) [] ∧
      s.readsLiterals (.record 1 2) ∧ s.literalsKnown (s.srcPos.toNat + 4) 1 ∧
      s.inp.read (s.srcPos.toNat + 4 + 1) = none) ∧
    (let s := { nearEnd .v1 [2, 0, 1, 0, 7] 1 with
       inp := [(0, 2), (1, 0), (2, 1), (3, 0)], v1DstCheck := .perRepetition }
     s.cursorsAgree ∧ decode s.algRun s.fetchBytes = .token (.record 2 1) [] ∧ s.readsLiterals (.record 2 1) ∧
      s.literalsKnown (s.srcPos.toNat + 4) 0 ∧ s.inp.read (s.srcPos.toNat + 4 + 0) = none) ∧
    (let s := { running .v2 [8, 1, 2] [] with inp := [(0, 8), (1, 1)] }
     s.cursorsAgree ∧ decode s.algRun s.fetchBytes = .token (.lit 2) [1] ∧ s.readsLiterals (.lit 2) ∧
      s.literalsKnown (s.srcPos.toNat + 1) 1 ∧ s.inp.read (s.srcPos.toNat + 1 + 1) = none) ∧
    (let s := { running .v2 [0x05, 0x01, 0x42] [0x41] with inp := [(0, 0x05), (1, 0x01)] }
     s.cursorsAgree ∧ decode s.algRun s.fetchBytes = .token (.br1 1 3 2) [] ∧ s.readsLiterals (.br1 1 3 2) ∧
      s.literalsKnown (s.srcPos.toNat + 2) 0 ∧ s.inp.read (s.srcPos.toNat + 2 + 0) = none) ∧
    (let s := { running .v2 [0x0B, 0, 0, 9, 8] [] with inp := [(0, 0x0B), (1, 0), (2, 0), (3, 9)] }
     s.cursorsAgree ∧ decode s.algRun s.fetchBytes = .token (.br3 2 0 0) [9] ∧ s.readsLiterals (.br3 2 0 0) ∧
      s.literalsKnown (s.srcPos.toNat + 3) 1 ∧ s.inp.read (s.srcPos.toNat + 3 + 1) = none) := by
  unfold State.cursorsAgree State.readsLiterals State.literalsKnown; decide

theorem witness_EngineNeverWritesItsInputs : (seen (engineStep (running .v2 [4, 9] []))).isSome = true := by decide

/-- A running state that keeps the invariant: `LIT`, then `END`, one byte decoded. -/
theorem running_inv : (running .v2 [4, 9, 0, 0] [7]).Inv where
  cursors _ := by unfold State.cursorsAgree; decide
  written _ := by unfold Memory.knownBelow; decide
  status := by unfold State.statusLegal; decide
  counts := by unfold State.countsLegal Memory.knownBelow; decide
  inpWf := by decide
  outWf := by decide

/-- A state of the same kind whose next input byte is unwritten. -/
theorem unwritten_inv : State.Inv { running .v2 [4, 9, 0, 0] [7] with inp := [] } where
  cursors _ := by unfold State.cursorsAgree; decide
  written _ := by unfold Memory.knownBelow; decide
  status := by unfold State.statusLegal; decide
  counts := by unfold State.countsLegal Memory.knownBelow; decide
  inpWf := by decide
  outWf := by decide

/-- A halted state that keeps the invariant, ready for START. -/
theorem ready_inv : State.Inv { State.reset with srcLen := 4, inp := [(0, 4), (1, 9), (2, 0), (3, 0)], alg := .v2 } where
  cursors h := by cases h
  written h := by cases h
  status := by unfold State.statusLegal; decide
  counts := by unfold State.countsLegal Memory.knownBelow; decide
  inpWf := by decide
  outWf := by decide

theorem witness_EngineWritesOnlyBetweenTheCursors :
    (running .v2 [4, 9, 0, 0] [7]).Inv ∧ (seen (engineStep (running .v2 [4, 9, 0, 0] [7]))).isSome = true :=
  ⟨running_inv, by decide⟩

theorem witness_HaltedEngineChangesNothing :
    ((idleWith []).busy = false ∧ (idleWith []).turns = []) ∧
    ((idleWith [.engine]).busy = false ∧ (idleWith [.engine]).turns = .engine :: []) := by decide

theorem witness_EngineStepHasThreeOutcomes :
    let s := running .v2 [4, 9, 0, 0] [7]
    s.Inv ∧ s.runState = .run ∧ s.turns = [] ∧ s.inputReady :=
  ⟨running_inv, by decide, by decide, by unfold State.inputReady Memory.knownBelow; decide⟩

theorem witness_EveryStepKeepsTheInvariant :
    (running .v2 [4, 9, 0, 0] [7]).Inv ∧ (seen (step (running .v2 [4, 9, 0, 0] [7]))).isSome = true :=
  ⟨running_inv, by decide⟩

theorem witness_EngineStaysInsideTheBuffers :
    State.Inv { running .v2 [4, 9, 0, 0] [7] with inp := [] } ∧
      ∃ f, step { running .v2 [4, 9, 0, 0] [7] with inp := [] } = .fault f :=
  ⟨unwritten_inv, .unwrittenInput 0, by rfl⟩

theorem witness_EveryRunEnds :
    let s := running .v2 [4, 9, 0, 0] [7]
    s.Inv ∧ s.runState = .run ∧ s.turns = [] ∧ s.inputReady :=
  ⟨running_inv, by decide, by decide, by unfold State.inputReady Memory.knownBelow; decide⟩

theorem witness_RunWritesExactlyTheCountedBytes :
    let s := { State.reset with srcLen := 4, inp := [(0, 4), (1, 9), (2, 0), (3, 0)], alg := .v2 }
    s.Inv ∧ s.turns = [] ∧ s.srcLen.toNat ≤ pageSize ∧
      ∃ t : State, Sys2Proof.core.run 2 (startRun s) = .next t ∧ t.busy = false :=
  ⟨ready_inv, by decide, by decide, _, rfl, by decide⟩

/-- Two states that differ in `OUT`, in `IRQ_EN`, in the counts and past the declared length. -/
theorem witness_ResultDependsOnlyOnTheInputs :
    let s := { State.reset with srcLen := 2, inp := [(0, 4), (1, 9)], alg := .v2 }
    let u := { State.reset with
      srcLen := 2, inp := [(0, 4), (1, 9), (2, 5)], alg := .v2, out := [(0, 1)], irqEn := true, dstCount := 1 }
    s.turns = [] ∧ u.turns = [] ∧ s.alg = u.alg ∧ s.srcLen = u.srcLen ∧ s.v1DstCheck = u.v1DstCheck ∧
      ∀ a, a < s.srcLen.toNat → s.inp.read a = u.inp.read a := by decide

theorem witness_OnlyStartBeginsARun :
    let s := idleWith [.host (.write 0x2000 (.word 1))]
    s.busy = false ∧ (seen (step s)).isSome = true ∧ (after (step s)).busy = true := by decide

theorem witness_OnlyTheEngineOrResetEndsARun :
    let s := running .v2 [0, 0] []
    s.busy = true ∧ (seen (step s)).isSome = true ∧ (after (step s)).busy = false := by decide

theorem witness_NoStepChangesTheParameter : (seen (step State.reset)).isSome = true := by decide

theorem witness_InstancesAreIndependent :
    let p : Platform := ⟨[State.reset, running .v2 [4, 9] []]⟩
    ∃ q : Platform, p.stepInstance 1 = .next q ∧ p.instances[1]? = some (running .v2 [4, 9] []) := ⟨_, rfl, rfl⟩

theorem witness_ResetAbandonsARun :
    let s := { running .v2 [4, 9] [] with turns := [.host .reset] }
    s.turns = .host .reset :: [] ∧ s.busy = true := by decide

/-- The longest legal length, and the shortest illegal one. -/
theorem witness_StartBeginsARun :
    (let s := { idleWith [.host (.write 0x2000 (.word 3))] with srcLen := 4096 }
     s.turns = .host (.write 0x2000 (.word 3)) :: [] ∧ s.busy = false ∧ (3 : Word).getLsbD 0 = true ∧
      s.srcLen.toNat ≤ pageSize) ∧
    (let s := { idleWith [.host (.write 0x2000 (.word 9))] with srcLen := 4097 }
     s.turns = .host (.write 0x2000 (.word 9)) :: [] ∧ s.busy = false ∧ (9 : Word).getLsbD 0 = true ∧
      pageSize < s.srcLen.toNat) := by decide

theorem witness_ClearReturnsToIdle :
    (let s := idleWith [.host (.write 0x2000 (.word 8))]
     s.turns = .host (.write 0x2000 (.word 8)) :: [] ∧ s.busy = false ∧ (8 : Word).getLsbD 0 = false ∧
      (8 : Word).getLsbD 3 = true) ∧
    (let s := idleWith [.host (.write 0x2000 (.word 6))]
     s.turns = .host (.write 0x2000 (.word 6)) :: [] ∧ s.busy = false ∧ (6 : Word).getLsbD 0 = false ∧
      (6 : Word).getLsbD 3 = false) := by decide

theorem witness_WritesWhileBusyAreIgnored :
    (let s := { running .v2 [4, 9] [] with turns := [.host (.write 0x2000 (.word 9))] }
     s.busy = true ∧ s.turns = .host (.write 0x2000 (.word 9)) :: []) ∧
    (let s := { running .v2 [4, 9] [] with turns := [.host (.write 0x2004 (.word 9))] }
     s.busy = true ∧ s.turns = .host (.write 0x2004 (.word 9)) :: []) := by decide

theorem witness_SourceLengthIsStoredAsWritten :
    let s := idleWith [.host (.write 0x2004 (.word 0xFFFFFFFF)), .host (.read 0x2004 .word)]
    s.busy = false ∧ s.turns = .host (.write 0x2004 (.word 0xFFFFFFFF)) :: .host (.read 0x2004 .word) :: [] := by decide

/-- The first read-only register, the first reserved offset and the last one. -/
theorem witness_ReservedReadsZeroAndIgnoresWrites :
    ((0x2008 : PortOffset).toNat % 4 = 0 ∧ 0x2008 ≤ (0x2008 : PortOffset).toNat ∧
      (idleWith [.host (.write 0x2008 (.word 1))]).turns = .host (.write 0x2008 (.word 1)) :: []) ∧
    ((0x2014 : PortOffset).toNat % 4 = 0 ∧ 0x2014 ≤ (0x2014 : PortOffset).toNat ∧
      (idleWith [.host (.read 0x2014 .word)]).turns = .host (.read 0x2014 .word) :: []) ∧
    ((0x3FFC : PortOffset).toNat % 4 = 0 ∧ 0x2014 ≤ (0x3FFC : PortOffset).toNat) := by decide

theorem witness_StatusReadsTheRunState :
    (idleWith [.host (.read 0x2008 .word)]).turns = .host (.read 0x2008 .word) :: [] ∧
    (idleWith [.host (.read 0x2008 .word)]).runState = .idle ∧ (running .v1 [] []).runState = .run ∧
    (finishOk State.reset).runState = .doneOk ∧ (raiseFault .sourceOverrun State.reset).runState = .doneErr := by decide

theorem witness_ControlReadsBack :
    (idleWith [.host (.read 0x2000 .word)]).turns = .host (.read 0x2000 .word) :: [] := by decide

/-- Both count registers, not BUSY and BUSY. -/
theorem witness_CountRegistersRead :
    (let s := idleWith [.host (.read 0x200C .word)]
     s.turns = .host (.read 0x200C .word) :: [] ∧ s.busy = false) ∧
    (let s := { running .v2 [4, 9] [] with turns := [.host (.read 0x2010 .word)] }
     s.turns = .host (.read 0x2010 .word) :: [] ∧ s.busy = true) := by decide

theorem witness_OtherAccessesAreRefused :
    ((idleWith [.host (.read 0x0001 .half)]).turns = .host (.read 0x0001 .half) :: [] ∧
      (0x0001 : PortOffset).toNat % PortWidth.half.size ≠ 0) ∧
    (let s := { running .v2 [4, 9] [] with turns := [.host (.write 0x1FFF (.byte 1))] }
     s.turns = .host (.write 0x1FFF (.byte 1)) :: [] ∧ (PortData.byte 1).width = .byte ∧
      (0x1FFF : PortOffset).toNat % PortWidth.byte.size = 0 ∧ (0x1FFF : PortOffset).toNat < 0x2000 ∧ s.busy = true) ∧
    ((idleWith [.host (.read 0x2000 .byte)]).turns = .host (.read 0x2000 .byte) :: [] ∧
      (0x2000 : PortOffset).toNat % PortWidth.byte.size = 0 ∧ 0x2000 ≤ (0x2000 : PortOffset).toNat ∧
      PortWidth.byte ≠ .word) := by decide

/-- The last word of `IN` and the first of `OUT`. -/
theorem witness_HostWriteStoresItsBytes :
    (let s := idleWith [.host (.write 0x0FFC (.word 7))]
     s.turns = .host (.write 0x0FFC (.word 7)) :: [] ∧ s.busy = false ∧
      (0x0FFC : PortOffset).toNat % (PortData.word 7).width.size = 0 ∧ (0x0FFC : PortOffset).toNat < 0x1000) ∧
    (let s := idleWith [.host (.write 0x1000 (.byte 7))]
     s.turns = .host (.write 0x1000 (.byte 7)) :: [] ∧ s.busy = false ∧
      (0x1000 : PortOffset).toNat % (PortData.byte 7).width.size = 0 ∧ 0x1000 ≤ (0x1000 : PortOffset).toNat ∧
      (0x1000 : PortOffset).toNat < 0x2000) := by decide

theorem witness_HostReadReturnsTheBytes :
    (let s := { idleWith [.host (.read 0x0FFE .half)] with inp := [(4094, 1), (4095, 2)] }
     s.turns = .host (.read 0x0FFE .half) :: [] ∧ s.busy = false ∧ (0x0FFE : PortOffset).toNat % PortWidth.half.size = 0 ∧
      (0x0FFE : PortOffset).toNat < 0x1000 ∧
      ∀ k, k < PortWidth.half.size → (s.inp.read ((0x0FFE : PortOffset).toNat + k)).isSome = true) ∧
    (let s := { idleWith [.host (.read 0x1000 .byte)] with out := [(0, 1)] }
     s.turns = .host (.read 0x1000 .byte) :: [] ∧ s.busy = false ∧ (0x1000 : PortOffset).toNat % PortWidth.byte.size = 0 ∧
      0x1000 ≤ (0x1000 : PortOffset).toNat ∧ (0x1000 : PortOffset).toNat < 0x2000 ∧
      ∀ k, k < PortWidth.byte.size → (s.out.read ((0x1000 : PortOffset).toNat - 0x1000 + k)).isSome = true) := by decide

theorem witness_ReadsHaveNoSideEffect :
    let s := idleWith [.host (.read 0x2008 .word)]
    s.turns = .host (.read 0x2008 .word) :: [] ∧ (seen (step s)).isSome = true := by decide

/-- CLEAR; a legal START; `IRQ_EN = 0` alone. -/
theorem witness_CompletionSignalIsALevel :
    (let s := idleWith [.host (.write 0x2000 (.word 0x0C))]
     s.turns = .host (.write 0x2000 (.word 0x0C)) :: [] ∧ s.busy = false ∧ (0x0C : Word).getLsbD 0 = false ∧
      (0x0C : Word).getLsbD 3 = true) ∧
    (let s := idleWith [.host (.write 0x2000 (.word 0x05))]
     s.busy = false ∧ (0x05 : Word).getLsbD 0 = true ∧ s.srcLen.toNat ≤ pageSize) ∧
    (0x02 : Word).getLsbD 2 = false ∧ ({ finishOk State.reset with irqEn := true } : State).doneIrq = true := by decide

theorem witness_MemoryIsCanonical : Memory.wf [(0, 1), (4095, 2)] ∧ 4095 < pageSize := by decide

end Sys2Proof.Tests
end

section
/-! PROOFS. What a token, and an engine's turn, can reach from any state: the frame. A token moves the cursors, the budgets and
`OUT`, and may then end the run; it changes nothing else. -/

namespace Sys2Proof.Machine

/-- `t` is `s` but for the cursors, the budgets and `OUT`. -/
def State.MovedTo (s t : State) : Prop :=
  t = { s with
    srcPos := t.srcPos, dstPos := t.dstPos, srcBudget := t.srcBudget, dstBudget := t.dstBudget, out := t.out }

theorem movedTo_refl (s : State) : s.MovedTo s := rfl

theorem State.MovedTo.trans {s t u : State} (h : s.MovedTo t) (h' : t.MovedTo u) : s.MovedTo u := by
  unfold State.MovedTo at h h' ⊢
  rw [h'.trans (by rw [h])]

theorem consume_movedTo (k : Nat) (s : State) : s.MovedTo (consume k s) := rfl

theorem writeDest_movedTo {rd : Nat → Memory → Except Fault Byte} {k : Nat} {s t : State}
    (h : writeDest rd k s = .ok t) : s.MovedTo t := by
  obtain ⟨m, -, rfl⟩ := writeDest_eq h
  rfl

/-- What a token can reach: a state that only moved, or the end of the run after such a move (R204 to R206). -/
inductive Reaches (s : State) : State → Prop where
  | moved {u : State} (h : s.MovedTo u) : Reaches s u
  | finished {u : State} (h : s.MovedTo u) : Reaches s (finishOk u)
  | failed {u : State} (h : s.MovedTo u) (k : FaultKind) : Reaches s (raiseFault k u)

theorem runToken_reaches {checks : List Check} {commit : State → Except Fault State} {s t : State}
    (hc : ∀ u, commit s = .ok u → Reaches s u) (h : runToken checks commit s = .next t) : Reaches s t := by
  rcases runToken_next h with ⟨k, -, rfl⟩ | ⟨-, h⟩
  · exact .failed (movedTo_refl s) k
  · exact hc t h

theorem writeDest_consume_reaches {rd : Nat → Memory → Except Fault Byte} {j k : Nat} {s t : State}
    (h : writeDest rd k (consume j s) = .ok t) : Reaches s t :=
  .moved ((consume_movedTo j s).trans (writeDest_movedTo h))

theorem runBackRef_reaches {hdr nr len off : Nat} {s t : State} (h : runBackRef hdr nr len off s = .next t) :
    Reaches s t := by
  refine runToken_reaches (fun u hu => ?_) h
  obtain ⟨x, hx, hu⟩ := bind_ok hu
  simp only [copyLit, consume_consume] at hx
  exact .moved (((consume_movedTo _ s).trans (writeDest_movedTo hx)).trans (writeDest_movedTo hu))

theorem overrunRecord_reaches {span : Nat} {s t : State} (h : overrunRecord span s = .ok t) : Reaches s t := by
  simp only [overrunRecord] at h
  split at h
  · cases h
  · next u hu =>
    obtain rfl := Except.ok.inj h
    exact .failed (writeDest_movedTo hu) _

/-- Once for all tokens, from any state. -/
theorem exec_reaches {i : Instr} {s t : State} (h : exec i s = .next t) : Reaches s t := by
  cases i with
  | record rep span =>
    simp only [exec, execRecord] at h
    split at h
    · exact runToken_reaches (fun u hu => writeDest_consume_reaches hu) h
    · refine runToken_reaches (fun u hu => ?_) h
      split at hu
      · exact writeDest_consume_reaches hu
      · exact overrunRecord_reaches hu
  | lit n =>
    simp only [exec, execLit] at h
    refine runToken_reaches (fun u hu => ?_) h
    simp only [copyLit, consume_consume] at hu
    exact writeDest_consume_reaches hu
  | fill m v =>
    simp only [exec, execFill] at h
    exact runToken_reaches (fun u hu => writeDest_consume_reaches hu) h
  | endPage =>
    simp only [exec, execEndPage] at h
    refine runToken_reaches (fun u hu => ?_) h
    obtain rfl := Except.ok.inj hu
    exact .finished (consume_movedTo 2 s)
  | br1 nr len off => exact runBackRef_reaches h
  | br2 len off =>
    simp only [exec, execBr2] at h
    exact runToken_reaches (fun u hu => writeDest_consume_reaches hu) h
  | br3 nr len off => exact runBackRef_reaches h

/-- What a token's reach leaves unchanged: all but the cursors, the budgets, `OUT`, the status and the counts. -/
theorem Reaches.keeps {s t : State} (h : Reaches s t) :
    t.inp = s.inp ∧ t.alg = s.alg ∧ t.irqEn = s.irqEn ∧ t.srcLen = s.srcLen ∧ t.srcLenRun = s.srcLenRun ∧
    t.algRun = s.algRun ∧ t.latches = s.latches ∧ t.v1DstCheck = s.v1DstCheck ∧ t.turns = s.turns ∧
    t.reads = s.reads ∧ t.draws = s.draws := by
  cases h with
  | moved h => rw [h]; simp
  | finished h => rw [h]; simp
  | failed h k => rw [h]; simp

/-- The status and the counts change only where the run ends, and the counts are then the cursors (R205, R206). -/
theorem Reaches.status {s t : State} (h : Reaches s t) :
    (t.runState = s.runState ∧ t.errCode = s.errCode ∧ t.dstCount = s.dstCount ∧ t.srcCount = s.srcCount) ∨
      ((t.runState = .doneOk ∨ t.runState = .doneErr) ∧ t.dstCount = t.dstPos ∧ t.srcCount = t.srcPos) := by
  cases h with
  | moved h => rw [h]; simp
  | finished h => simp
  | failed h k => simp

/-- Settles O23: a token reaches a moved state, or the end of the run after a move. -/
theorem tokensLeaveTheRestAlone : Obligations.TokensLeaveTheRestAlone := by
  unfold Obligations.TokensLeaveTheRestAlone
  intro i s t h
  have r := exec_reaches h
  obtain ⟨h1, h2, h3, h4, h5, h6, h7, h8, h9, h10, h11⟩ := r.keeps
  exact ⟨h1, h2, h3, h4, h5, h6, h7, h8, h9, h10, h11, r.status⟩

/-- The turn of an engine that is not in a run changes nothing (R203, R227). -/
theorem eq_of_engineStep_halted {s t : State} (h : engineStep s = .next t) (hr : s.runState ≠ .run) : t = s := by
  rw [engineStep_idle hr] at h
  injection h with h
  exact h.symm

/-- An engine's turn latches a token's fields, or none, and reaches what a token can reach. -/
theorem engineStep_reaches {s t : State} (h : engineStep s = .next t) : ∃ l, Reaches { s with latches := l } t := by
  by_cases hr : s.runState = .run
  · rw [engineStep_run hr] at h
    cases hf : s.fetch with
    | endOfSource =>
      simp only [hf, runFetched] at h
      split at h
      · injection h with h; subst h; exact ⟨s.latches, .finished (movedTo_refl s)⟩
      · injection h with h; subst h; exact ⟨s.latches, .failed (movedTo_refl s) _⟩
    | cutShort =>
      simp only [hf, runFetched] at h
      injection h with h; subst h; exact ⟨s.latches, .failed (movedTo_refl s) _⟩
    | unwritten a => simp [hf, runFetched] at h
    | token i =>
      simp only [hf, runFetched] at h
      exact ⟨latchFields i s.latches, exec_reaches h⟩
  · obtain rfl := eq_of_engineStep_halted h hr
    exact ⟨_, .moved (movedTo_refl _)⟩

/-- Settles O31: an engine's turn reaches what a token can, and so keeps its inputs. -/
theorem engineNeverWritesItsInputs : Obligations.EngineNeverWritesItsInputs := by
  unfold Obligations.EngineNeverWritesItsInputs
  intro s t h
  obtain ⟨l, r⟩ := engineStep_reaches h
  obtain ⟨h1, h2, h3, h4, h5, h6, -, h8, -, h10, h11⟩ := r.keeps
  exact ⟨h1, h2, h3, h4, h5, h6, h8, h10, h11⟩

end Sys2Proof.Machine
end

section
/-! PROOFS. The invariant: what a run in progress keeps, token by token, then what the host's moves keep, then every step; and
what a step of the engine writes. -/

namespace Sys2Proof.Machine

/-! ### The engine -/

/-- The registers still agree after a token, a run that it ends included (R21, R23). -/
theorem TokenEffect.cursorsAgree {i : Instr} {s t : State} (hs : s.cursorsAgree) (h : TokenEffect i s t) :
    t.cursorsAgree := by
  cases h with
  | failed k hk => exact hs
  | overrun k m hk hm hv hp => exact (cursorsAgree_afterToken (m := m) hs (Nat.zero_le _) hk).1
  | committed m hj hk hm he => exact (cursorsAgree_afterToken hs hj hk).1
  | finished hj he => exact (cursorsAgree_afterToken (m := s.out) hs hj (Nat.zero_le _)).1

/-- What a run in progress keeps: the part of the invariant that does not speak of the status and the counts. -/
structure State.RunGood (s : State) : Prop where
  cursors : s.cursorsAgree
  written : s.out.knownBelow s.dstPos.toNat
  inpWf : s.inp.wf
  outWf : s.out.wf

theorem State.Inv.runGood {s : State} (h : s.Inv) (hr : s.runState = .run) : s.RunGood :=
  ⟨h.cursors hr, h.written hr, h.inpWf, h.outWf⟩

theorem State.RunGood.srcPos_le {s : State} (h : s.RunGood) : s.srcPos.toNat ≤ pageSize := by
  obtain ⟨h1, h2, -⟩ := h.cursors
  omega

theorem State.RunGood.dstPos_le {s : State} (h : s.RunGood) : s.dstPos.toNat ≤ pageSize := by
  obtain ⟨-, -, h3⟩ := h.cursors
  omega

/-- The counts that the end of a run reports are the cursors (R205, R206). -/
theorem State.RunGood.finishOk {s : State} (h : s.RunGood) : (finishOk s).Inv where
  cursors := nofun
  written := nofun
  status := ⟨fun _ => rfl, nofun⟩
  counts := ⟨h.dstPos_le, h.srcPos_le, h.written⟩
  inpWf := h.inpWf
  outWf := h.outWf

/-- No fault kind's code is 0, 6 or 7 (R220). -/
theorem code_range (k : FaultKind) : 1 ≤ k.code.toNat ∧ k.code.toNat ≤ 5 := by cases k <;> decide

theorem State.RunGood.raiseFault {s : State} (h : s.RunGood) (k : FaultKind) : (raiseFault k s).Inv where
  cursors := nofun
  written := nofun
  status := ⟨fun e => absurd rfl e, fun _ => code_range k⟩
  counts := ⟨h.dstPos_le, h.srcPos_le, h.written⟩
  inpWf := h.inpWf
  outWf := h.outWf

/-- A copy makes no known byte unknown. -/
theorem Wrote.isSome {s : State} {k : Nat} {m : Memory} (w : Wrote s k m) {a : Nat}
    (h : (s.out.read a).isSome = true) : (m.read a).isSome = true := by
  by_cases ha : s.dstPos.toNat ≤ a ∧ a < s.dstPos.toNat + k
  · exact w.known a ha.1 ha.2
  · rwa [w.outside a (by omega)]

theorem wrote_nothing (s : State) : Wrote s 0 s.out where
  inside h := absurd h (Nat.lt_irrefl 0)
  wf h := h
  known a l u := by omega
  outside _ _ := rfl

/-- A covered copy keeps what a run keeps, and the copied bytes are known (R135, R137). -/
theorem State.RunGood.afterToken {s : State} {j k : Nat} {m : Memory} (h : s.RunGood) (hj : j ≤ s.srcBudget.toNat)
    (hk : k ≤ s.dstBudget.toNat) (w : Wrote s k m) : (s.afterToken j k m).RunGood where
  cursors := (cursorsAgree_afterToken h.cursors hj hk).1
  written a ha := by
    obtain ⟨-, -, -, hd, -⟩ := cursorsAgree_afterToken (m := m) h.cursors hj hk
    rw [hd] at ha
    by_cases hl : a < s.dstPos.toNat
    · exact w.isSome (h.written a hl)
    · exact w.known a (by omega) ha
  inpWf := h.inpWf
  outWf := w.wf h.outWf

theorem TokenEffect.inv {i : Instr} {s t : State} (hs : s.Inv) (hr : s.runState = .run) (h : TokenEffect i s t) :
    t.Inv := by
  have g := hs.runGood hr
  cases h with
  | failed k hk => exact g.raiseFault k
  | overrun k m hk hm hv hp => exact (g.afterToken (Nat.zero_le _) hk hm).raiseFault _
  | committed m hj hk hm he =>
    have g' := g.afterToken hj hk hm
    obtain ⟨hd, hc, hn⟩ := hs.counts
    exact ⟨fun _ => g'.cursors, fun _ => g'.written, hs.status, ⟨hd, hc, fun a ha => hm.isSome (hn a ha)⟩,
      g'.inpWf, g'.outWf⟩
  | finished hj he => exact (g.afterToken hj (Nat.zero_le _) (wrote_nothing s)).finishOk

/-- The invariant does not speak of the host's registers, the latches, the parameter and the model's own fields. -/
theorem State.Inv.withUnnamed {s : State} (h : s.Inv) (alg : Grammar) (irqEn : Bool) (srcLen : Cursor)
    (latches : TokenLatches) (v1DstCheck : V1DstCheck) (turns : List Turn) (reads : List PortData) (draws : Nat) :
    State.Inv { s with
      alg := alg, irqEn := irqEn, srcLen := srcLen, latches := latches, v1DstCheck := v1DstCheck, turns := turns,
      reads := reads, draws := draws } :=
  ⟨h.cursors, h.written, h.status, h.counts, h.inpWf, h.outWf⟩

theorem State.Inv.withTurns {s : State} (h : s.Inv) (ts : List Turn) : State.Inv { s with turns := ts } :=
  h.withUnnamed ..

theorem State.Inv.latch {s : State} (h : s.Inv) (i : Instr) : (s.latch i).Inv := h.withUnnamed ..

theorem EngineEffect.inv {s t : State} (hs : s.Inv) (h : EngineEffect s t) : t.Inv := by
  cases h with
  | halted => exact hs
  | cleanEnd hr => exact (hs.runGood hr).finishOk
  | exhausted hr => exact (hs.runGood hr).raiseFault _
  | token hr i hf _ ht => exact ht.inv (hs.latch i) hr

/-! ### The host's moves -/

theorem wf_nil : Memory.wf [] := ⟨.nil, nofun⟩

theorem knownBelow_zero (m : Memory) : m.knownBelow 0 := fun a h => absurd h (Nat.not_lt_zero a)

/-- Settles O35: no run is in progress, and both buffers are empty. -/
theorem resetStateIsGood : Obligations.ResetStateIsGood where
  cursors := nofun
  written := nofun
  status := ⟨fun _ => rfl, nofun⟩
  counts := ⟨Nat.zero_le _, Nat.zero_le _, knownBelow_zero _⟩
  inpWf := wf_nil
  outWf := wf_nil

theorem State.Inv.resetBlock (s : State) : (resetBlock s).Inv := resetStateIsGood.withUnnamed ..

theorem State.Inv.clearRun {s : State} (h : s.Inv) : (clearRun s).Inv where
  cursors := nofun
  written := nofun
  status := ⟨fun _ => rfl, nofun⟩
  counts := h.counts
  inpWf := h.inpWf
  outWf := h.outWf

/-- START with an illegal length (R201). -/
theorem startRun_illegal {s : State} (h : pageSize < s.srcLen.toNat) :
    startRun s = { s with dstCount := 0, srcCount := 0, runState := .doneErr, errCode := 5 } := if_pos h

/-- START with a legal length (R31, R201). -/
theorem startRun_legal {s : State} (h : s.srcLen.toNat ≤ pageSize) :
    startRun s = { s with
      dstCount := 0, srcCount := 0, errCode := 0, runState := .run, algRun := s.alg, srcLenRun := s.srcLen,
      srcPos := 0, dstPos := 0, srcBudget := s.srcLen, dstBudget := 4096 } := if_neg (Nat.not_lt.mpr h)

/-- A legal START leaves registers that agree. -/
theorem startRun_cursorsAgree {s : State} (h : s.srcLen.toNat ≤ pageSize) : (startRun s).cursorsAgree := by
  rw [startRun_legal h]
  exact ⟨h, Nat.zero_add _, rfl⟩

theorem State.Inv.startRun {s : State} (h : s.Inv) : (startRun s).Inv := by
  by_cases hl : s.srcLen.toNat ≤ pageSize
  · have hc := startRun_cursorsAgree hl
    rw [startRun_legal hl] at hc ⊢
    exact ⟨fun _ => hc, fun _ => knownBelow_zero _, ⟨fun _ => rfl, nofun⟩,
      ⟨Nat.zero_le _, Nat.zero_le _, knownBelow_zero _⟩, h.inpWf, h.outWf⟩
  · rw [startRun_illegal (Nat.lt_of_not_le hl)]
    exact ⟨nofun, nofun, ⟨fun e => absurd rfl e, fun _ => code_range .badSourceLength⟩,
      ⟨Nat.zero_le _, Nat.zero_le _, knownBelow_zero _⟩, h.inpWf, h.outWf⟩

theorem State.Inv.writeCtrl {s : State} (h : s.Inv) (v : Word) : (writeCtrl v s).Inv := by
  have h1 : State.Inv { s with alg := algOfBit (v.getLsbD 1), irqEn := v.getLsbD 2 } := h.withUnnamed ..
  simp only [Machine.writeCtrl, performCtrl]
  split
  · exact h
  · split
    · split
      · exact h1.clearRun.startRun
      · exact h1.startRun
    · split
      · exact h1.clearRun
      · exact h1

theorem State.Inv.writeSrcLen {s : State} (h : s.Inv) (v : Word) : (writeSrcLen v s).Inv := by
  simp only [Machine.writeSrcLen]
  split
  · exact h
  · exact h.withUnnamed ..

/-- Host bytes make no known byte unknown. -/
theorem knownBelow_writeBytes {m : Memory} {n : Nat} (h : m.knownBelow n) (a : Nat) (bs : List Byte) :
    (m.writeBytes a bs).knownBelow n := by
  intro c hc
  rw [read_writeBytes]
  split
  · simp; omega
  · exact h c hc

theorem not_run_of_not_busy {s : State} (h : s.busy = false) : s.runState ≠ .run := fun e => by
  simp [(busy_iff s).mpr e] at h

/-- An aligned access that starts in a buffer of the page's size ends in it (R62). -/
theorem aligned_inside {a o : Nat} {w : PortWidth} (h : o % w.size = 0) (ho : o = a ∨ o = a + 0x1000)
    (ha : a < 0x1000) : a + w.size ≤ pageSize := by
  cases w <;> simp only [PortWidth.size, pageSize] at * <;> omega

theorem State.Inv.portWrite {s : State} (h : s.Inv) {o : PortOffset} {d : PortData}
    (hp : s.portRefusal o d.width = none) : (portWrite (portPlace o) d s).Inv := by
  obtain ⟨hal, hbusy, -⟩ := portRefusal_none hp
  obtain ⟨hin, hout⟩ := portPlace_buffer o
  cases e : portPlace o with
  | inp a =>
    obtain ⟨ho, ha⟩ := hin a e
    have hl := aligned_inside hal (.inl ho.symm) ha
    exact ⟨h.cursors, h.written, h.status, h.counts, wf_writeBytes h.inpWf (by rwa [length_bytes]), h.outWf⟩
  | out a =>
    obtain ⟨ho, ha⟩ := hout a e
    have hl := aligned_inside hal (.inr ho.symm) ha
    have hr := not_run_of_not_busy (hbusy (by rw [e]; rfl))
    obtain ⟨hd, hc, hn⟩ := h.counts
    exact ⟨h.cursors, fun e => absurd e hr, h.status, ⟨hd, hc, knownBelow_writeBytes hn _ _⟩, h.inpWf,
      wf_writeBytes h.outWf (by rwa [length_bytes])⟩
  | ctrl =>
    cases d with
    | word v => exact h.writeCtrl v
    | byte v => exact h
    | half v => exact h
  | srcLen =>
    cases d with
    | word v => exact h.writeSrcLen v
    | byte v => exact h
    | half v => exact h
  | status => exact h
  | dstCount => exact h
  | srcCount => exact h
  | reserved => exact h

theorem HostEffect.inv {s t : State} {a : HostAction} (hs : s.Inv) (h : HostEffect s a t) : t.Inv := by
  cases h with
  | write o d hp => exact hs.portWrite hp
  | read o w hp => exact hs.withUnnamed ..
  | reset => exact State.Inv.resetBlock s

/-- Settles O36: a step is the engine's turn or a move of the outside world, and both keep the invariant. -/
theorem everyStepKeepsTheInvariant : Obligations.EveryStepKeepsTheInvariant := by
  unfold Obligations.EveryStepKeepsTheInvariant
  intro s t hs h
  rcases step_effect hs.cursors h with ⟨ts, he⟩ | ⟨a, ts, -, hh⟩
  · exact he.inv (hs.withTurns ts)
  · exact hh.inv (hs.withTurns ts)

/-! ### Where the engine writes -/

/-- Both cursors of `t` are at or past those of `s`, and `OUT` differs at most between the two destination cursors. -/
def State.AdvancesTo (s t : State) : Prop :=
  s.srcPos.toNat ≤ t.srcPos.toNat ∧ s.dstPos.toNat ≤ t.dstPos.toNat ∧
    ∀ a, a < s.dstPos.toNat ∨ t.dstPos.toNat ≤ a → t.out.read a = s.out.read a

theorem advancesTo_refl (s : State) : s.AdvancesTo s := ⟨Nat.le_refl _, Nat.le_refl _, fun _ _ => rfl⟩

theorem advancesTo_afterToken {s : State} {j k : Nat} {m : Memory} (hs : s.cursorsAgree) (hj : j ≤ s.srcBudget.toNat)
    (hk : k ≤ s.dstBudget.toNat) (w : Wrote s k m) : s.AdvancesTo (s.afterToken j k m) := by
  obtain ⟨-, hp, -, hd, -⟩ := cursorsAgree_afterToken (m := m) hs hj hk
  refine ⟨by omega, by omega, fun a ha => w.outside a ?_⟩
  rwa [hd] at ha

theorem TokenEffect.advancesTo {i : Instr} {s t : State} (hs : s.cursorsAgree) (h : TokenEffect i s t) :
    s.AdvancesTo t := by
  cases h with
  | failed k hk => exact advancesTo_refl s
  | overrun k m hk hm hv hp => exact advancesTo_afterToken hs (Nat.zero_le _) hk hm
  | committed m hj hk hm he => exact advancesTo_afterToken hs hj hk hm
  | finished hj he => exact advancesTo_afterToken hs hj (Nat.zero_le _) (wrote_nothing s)

theorem EngineEffect.advancesTo {s t : State} (hs : s.Inv) (h : EngineEffect s t) : s.AdvancesTo t := by
  cases h with
  | halted => exact advancesTo_refl s
  | cleanEnd => exact advancesTo_refl s
  | exhausted => exact advancesTo_refl s
  | token hr i hf _ ht => exact ht.advancesTo (s := s.latch i) (hs.cursors hr)

/-- Settles O32: every answer of the engine's turn advances. -/
theorem engineWritesOnlyBetweenTheCursors : Obligations.EngineWritesOnlyBetweenTheCursors := by
  unfold Obligations.EngineWritesOnlyBetweenTheCursors
  intro s t hs h
  exact (engineStep_effect hs.cursors h).advancesTo hs

end Sys2Proof.Machine
end

section
/-! PROOFS. Runs: an induction over the steps of a run, and what a run from START writes. -/

namespace Sys2Proof.Machine

theorem coreRun_succ_next {M : Host.Core} {n : Nat} {s t : M.State} (h : M.run (n + 1) s = .next t) :
    ∃ u, M.step s = .next u ∧ M.run n u = .next t := by
  simp only [Host.Core.run] at h
  split at h
  · next u e => exact ⟨u, e, h⟩
  · cases h
  · cases h

/-- A run of several steps that is not stopped has a first step. -/
theorem run_succ_next {n : Nat} {s t : State} (h : Sys2Proof.core.run (n + 1) s = .next t) :
    ∃ u, step s = .next u ∧ Sys2Proof.core.run n u = .next t := coreRun_succ_next (M := Sys2Proof.core) h

/-- What every step keeps holds after any number of steps. -/
theorem run_keeps {P : State → Prop} (hstep : ∀ u v, P u → step u = .next v → P v) {n : Nat} {s t : State} (hs : P s)
    (h : Sys2Proof.core.run n s = .next t) : P t := by
  induction n generalizing s with
  | zero => obtain rfl : s = t := by injection h
            exact hs
  | succ n ih =>
    obtain ⟨u, hu, ht⟩ := run_succ_next h
    exact ih (hstep s u hs hu) ht

/-- Where the engine alone takes turns it goes on doing so. -/
theorem turns_of_engineStep {s t : State} (h : engineStep s = .next t) : t.turns = s.turns := by
  obtain ⟨l, r⟩ := engineStep_reaches h
  obtain ⟨-, -, -, -, -, -, -, -, ht, -, -⟩ := r.keeps
  exact ht

/-- A turn of the engine in a run goes on with the run, or ends it with the cursors in the counts (R204 to R206). -/
theorem counts_of_engineStep {s t : State} (hr : s.runState = .run) (h : engineStep s = .next t)
    (ht : t.runState ≠ .run) : t.dstCount = t.dstPos ∧ t.srcCount = t.srcPos := by
  obtain ⟨l, r⟩ := engineStep_reaches h
  rcases r.status with ⟨e, -⟩ | ⟨-, h⟩
  · exact absurd (e.trans hr) ht
  · exact h

/-- A state that a run from START in `s` reaches: all of `IN` is as at START, and so is `OUT` past what was written. -/
structure State.RunOf (s u : State) : Prop where
  inv : u.Inv
  turns : u.turns = []
  inp : u.inp = s.inp
  running : u.runState = .run → ∀ a, u.dstPos.toNat ≤ a → u.out.read a = s.out.read a
  ended : u.runState ≠ .run → ∀ a, u.dstCount.toNat ≤ a → u.out.read a = s.out.read a

theorem runOf_startRun {s : State} (hs : s.Inv) (ht : s.turns = []) (hl : s.srcLen.toNat ≤ pageSize) :
    s.RunOf (startRun s) := by
  have hi := hs.startRun
  rw [startRun_legal hl] at hi ⊢
  exact ⟨hi, ht, rfl, fun _ _ _ => rfl, fun e => absurd rfl e⟩

theorem State.RunOf.step {s u v : State} (h : s.RunOf u) (hv : step u = .next v) : s.RunOf v := by
  have hi := everyStepKeepsTheInvariant u v h.inv hv
  rw [step_nil h.turns] at hv
  by_cases hr : u.runState = .run
  · have hout : ∀ a, v.dstPos.toNat ≤ a → v.out.read a = s.out.read a := fun a ha => by
      obtain ⟨-, hd, hw⟩ := engineWritesOnlyBetweenTheCursors u v h.inv hv
      rw [hw a (.inr ha), h.running hr a (by omega)]
    refine ⟨hi, (turns_of_engineStep hv).trans h.turns, (engineNeverWritesItsInputs u v hv).1.trans h.inp,
      fun _ => hout, fun e => ?_⟩
    rw [(counts_of_engineStep hr hv e).1]
    exact hout
  · rwa [eq_of_engineStep_halted hv hr]

/-- Settles O39, by induction on the steps of the run. -/
theorem runWritesExactlyTheCountedBytes : Obligations.RunWritesExactlyTheCountedBytes := by
  unfold Obligations.RunWritesExactlyTheCountedBytes
  intro s t n hs ht hl h hb
  have r : s.RunOf t := run_keeps (P := s.RunOf) (fun _ _ => State.RunOf.step) (runOf_startRun hs ht hl) h
  obtain ⟨-, -, hk⟩ := r.inv.counts
  exact ⟨hk, r.ended (not_run_of_not_busy hb), r.inp⟩

end Sys2Proof.Machine
end

section
/-! PROOFS. Noninterference: two runs from states that agree in the run's registers, in the declared bytes of `IN` and in what has
been written of `OUT` answer alike, step by step. -/

namespace Sys2Proof.Machine

/-- Two states alike in all that a token of the run reads: the status, the run's registers, the parameter, `IN` below the declared
length, and `OUT` below the destination cursor. -/
structure Alike (s u : State) : Prop where
  runState : s.runState = u.runState
  errCode : s.errCode = u.errCode
  srcPos : s.srcPos = u.srcPos
  dstPos : s.dstPos = u.dstPos
  srcBudget : s.srcBudget = u.srcBudget
  dstBudget : s.dstBudget = u.dstBudget
  srcLenRun : s.srcLenRun = u.srcLenRun
  algRun : s.algRun = u.algRun
  v1DstCheck : s.v1DstCheck = u.v1DstCheck
  inp : ∀ a, a < s.srcLenRun.toNat → s.inp.read a = u.inp.read a
  out : ∀ a, a < s.dstPos.toNat → s.out.read a = u.out.read a

/-- Two transfers that end alike: at the same stop, or in states that are alike. -/
inductive AlikeResults : Except Fault State → Except Fault State → Prop where
  | ok {t v : State} (h : Alike t v) : AlikeResults (.ok t) (.ok v)
  | error (f : Fault) : AlikeResults (.error f) (.error f)

/-- Two answers that are alike: the same stop, or states that are alike. -/
inductive AlikeOutcomes : Outcome → Outcome → Prop where
  | next {t v : State} (h : Alike t v) : AlikeOutcomes (.next t) (.next v)
  | fault (f : Fault) : AlikeOutcomes (.fault f) (.fault f)

theorem AlikeResults.inv {a b : Except Fault State} (h : AlikeResults a b) :
    (∃ f, a = .error f ∧ b = .error f) ∨ ∃ t v, a = .ok t ∧ b = .ok v ∧ Alike t v := by
  cases h with
  | ok h => exact .inr ⟨_, _, rfl, rfl, h⟩
  | error f => exact .inl ⟨f, rfl, rfl⟩

theorem AlikeOutcomes.inv {a b : Outcome} (h : AlikeOutcomes a b) :
    (∃ f, a = .fault f ∧ b = .fault f) ∨ ∃ t v, a = .next t ∧ b = .next v ∧ Alike t v := by
  cases h with
  | next h => exact .inr ⟨_, _, rfl, rfl, h⟩
  | fault f => exact .inl ⟨f, rfl, rfl⟩

variable {s u : State}

theorem Alike.raiseFault (h : Alike s u) (k : FaultKind) : Alike (raiseFault k s) (raiseFault k u) :=
  { h with runState := rfl, errCode := rfl }

theorem Alike.finishOk (h : Alike s u) : Alike (finishOk s) (finishOk u) := { h with runState := rfl, errCode := rfl }

theorem Alike.latch (h : Alike s u) (i : Instr) : Alike (s.latch i) (u.latch i) := { h with }

theorem Alike.consume (h : Alike s u) (k : Nat) : Alike (consume k s) (consume k u) :=
  { h with
    srcPos := congrArg (· + BitVec.ofNat 13 k) h.srcPos
    srcBudget := congrArg (· - BitVec.ofNat 13 k) h.srcBudget }

theorem AlikeResults.bind {a b : Except Fault State} {f g : State → Except Fault State} (h : AlikeResults a b)
    (hfg : ∀ t v, a = .ok t → Alike t v → AlikeResults (f t) (g v)) : AlikeResults (a.bind f) (b.bind g) := by
  cases h with
  | ok h => exact hfg _ _ rfl h
  | error f => exact .error f

/-- Checks read only the budgets. -/
theorem Alike.firstFailure (h : Alike s u) (cs : List Check) : firstFailure s cs = firstFailure u cs := by
  induction cs with
  | nil => rfl
  | cons c cs ih =>
    rw [firstFailure_cons, firstFailure_cons, ih]
    cases c <;> simp only [Check.failure, h.srcBudget, h.dstBudget]

theorem Alike.runToken (h : Alike s u) {cs : List Check} {commit commit' : State → Except Fault State}
    (hc : Machine.firstFailure s cs = none → AlikeResults (commit s) (commit' u)) :
    AlikeOutcomes (runToken cs commit s) (runToken cs commit' u) := by
  simp only [Machine.runToken, ← h.firstFailure cs]
  cases e : Machine.firstFailure s cs with
  | some k => exact .next (h.raiseFault k)
  | none =>
    rcases (hc e).inv with ⟨f, e, e'⟩ | ⟨t, v, e, e', h⟩
    · simp only [e, e']
      exact .fault f
    · simp only [e, e']
      exact .next h

/-! ### Transfers -/

/-- Transfers whose reads are alike end alike. -/
theorem Alike.writeDest (h : Alike s u) {rd rd' : Nat → Memory → Except Fault Byte} {k : Nat}
    (hrd : ∀ j n n', j < k → (∀ a, a < s.dstPos.toNat + j → Memory.read n a = Memory.read n' a) → rd j n = rd' j n') :
    AlikeResults (writeDest rd k s) (writeDest rd' k u) := by
  rcases writeRun_agree (rd := rd) (rd' := rd') (base := s.dstPos.toNat) k 0 s.out u.out
    (fun j n n' _ l => hrd j n n' (by omega)) h.out with ⟨f, e, e'⟩ | ⟨m, m', e, e', hm⟩
  · simp only [Machine.writeDest, ← h.dstPos, e, e']
    exact .error f
  · simp only [Machine.writeDest, ← h.dstPos, e, e']
    refine .ok { h with
      dstPos := rfl
      dstBudget := congrArg (· - BitVec.ofNat 13 k) h.dstBudget
      out := fun a ha => hm a ?_ }
    simp only [BitVec.toNat_add, BitVec.toNat_ofNat] at ha
    omega

theorem Alike.readIn (h : Alike s u) {a : Nat} (ha : a < s.srcLenRun.toNat) :
    readIn s.inp a = readIn u.inp a := by
  simp only [Machine.readIn, h.inp a ha]

theorem Alike.copyLit (h : Alike s u) {a k : Nat} (hk : a + k ≤ s.srcLenRun.toNat) :
    AlikeResults (copyLit a k s) (copyLit a k u) :=
  (h.consume k).writeDest fun j _ _ hj _ => h.readIn (by omega)

theorem Alike.fillRun (h : Alike s u) (v : Byte) (k : Nat) : AlikeResults (fillRun v k s) (fillRun v k u) :=
  h.writeDest fun _ _ _ _ _ => rfl

theorem Alike.copyBack (h : Alike s u) {off k : Nat} (hw : off ≤ s.dstPos.toNat) (ho : off = 0 → k = 0) :
    AlikeResults (copyBack off k s) (copyBack off k u) := by
  refine h.writeDest fun j n n' hj hn => ?_
  simp only [readOut, ← h.dstPos, hn (s.dstPos.toNat - off + j) (by omega)]

theorem Alike.replaySpan (h : Alike s u) {a span : Nat} (ha : a + span ≤ s.srcLenRun.toNat) (reps : Nat) :
    AlikeResults (replaySpan a span reps s) (replaySpan a span reps u) := by
  refine h.writeDest fun j _ _ hj _ => h.readIn ?_
  have hs : 0 < span := Nat.pos_of_mul_pos_left (Nat.lt_of_le_of_lt (Nat.zero_le j) hj)
  have := Nat.mod_lt j hs
  omega

/-! ### Tokens -/

/-- What a passed source check says (R131). -/
theorem covered_of_passed {cs : List Check} {j : Nat} (kind : FaultKind) (h : firstFailure s cs = none)
    (hc : .src j kind ∈ cs) : j ≤ s.srcBudget.toNat := by
  simpa using firstFailure_none.mp h _ hc

/-- What a passed destination check says (R132). -/
theorem room_of_passed {cs : List Check} {j : Nat} (h : firstFailure s cs = none) (hc : .dst j ∈ cs) :
    j ≤ s.dstBudget.toNat := by
  simpa using firstFailure_none.mp h _ hc

/-- What a passed back-reference check says (R136). -/
theorem backRef_of_passed {cs : List Check} {off len w : Nat} (h : firstFailure s cs = none)
    (hc : .backRef off len w ∈ cs) : off ≤ w ∧ (off = 0 → len = 0) := by
  have e := firstFailure_none.mp h _ hc
  rwa [failure_backRef, ite_eq_left_iff, imp_iff_not_or, or_iff_left nofun, not_not] at e

/-- Bytes that the budget covers lie below the declared length. -/
theorem covered_le {j : Nat} (hs : s.cursorsAgree) (hj : j ≤ s.srcBudget.toNat) :
    s.srcPos.toNat + j ≤ s.srcLenRun.toNat := by
  obtain ⟨-, h, -⟩ := hs
  omega

theorem Alike.commitRecord (h : Alike s u) (hs : s.cursorsAgree) {rep span : Nat} (hj : 4 + span ≤ s.srcBudget.toNat) :
    AlikeResults (commitRecord rep span s) (commitRecord rep span u) := by
  have := covered_le hs hj
  simp only [Machine.commitRecord, ← h.srcPos]
  exact (h.consume _).replaySpan (by rw [consume_srcLenRun]; omega) rep

theorem Alike.overrunRecord (h : Alike s u) (hs : s.cursorsAgree) {span : Nat} (hj : 4 + span ≤ s.srcBudget.toNat) :
    AlikeResults (overrunRecord span s) (overrunRecord span u) := by
  have := covered_le hs hj
  have r := h.replaySpan (a := s.srcPos.toNat + 4) (span := span) (by omega) (s.dstBudget.toNat / span)
  simp only [Machine.overrunRecord, ← h.srcPos, ← h.dstBudget]
  rcases r.inv with ⟨f, e, e'⟩ | ⟨t, v, e, e', h⟩
  · simp only [e, e']
    exact .error f
  · simp only [e, e']
    exact .ok (h.raiseFault _)

theorem Alike.runBackRef (h : Alike s u) (hs : s.cursorsAgree) (hdr nr len off : Nat) :
    AlikeOutcomes (runBackRef hdr nr len off s) (runBackRef hdr nr len off u) := by
  simp only [Machine.runBackRef, ← h.dstPos]
  refine h.runToken fun e => ?_
  have hj : hdr + nr ≤ s.srcBudget.toNat := covered_of_passed .sourceOverrun e (by simp)
  have hk : nr ≤ s.dstBudget.toNat := room_of_passed e (by simp)
  obtain ⟨hw, ho⟩ : off ≤ s.dstPos.toNat + nr ∧ (off = 0 → len = 0) := backRef_of_passed e (by simp)
  have := covered_le hs hj
  rw [← h.srcPos]
  refine ((h.consume hdr).copyLit (by rw [consume_srcLenRun]; omega)).bind fun t v ht hv => hv.copyBack ?_ ho
  simp only [Machine.copyLit, consume_consume] at ht
  obtain ⟨m, -, rfl⟩ := writeDest_consume_ok hs hj hk ht
  obtain ⟨-, -, -, hd, -⟩ := cursorsAgree_afterToken (m := m) hs hj hk
  omega

theorem Alike.execRecord (h : Alike s u) (hs : s.cursorsAgree) (rep span : BitVec 16) :
    AlikeOutcomes (execRecord rep span s) (execRecord rep span u) := by
  simp only [Machine.execRecord, ← h.v1DstCheck]
  cases s.v1DstCheck with
  | wholeRecord =>
    exact h.runToken fun e => h.commitRecord hs (covered_of_passed .sourceOverrun e (by simp))
  | perRepetition =>
    refine h.runToken fun e => ?_
    have hj : 4 + span.toNat ≤ s.srcBudget.toNat := covered_of_passed .sourceOverrun e (by simp)
    simp only [← h.dstBudget]
    split
    · exact h.commitRecord hs hj
    · exact h.overrunRecord hs hj

/-- Once for all tokens: from states that are alike a token answers alike. -/
theorem Alike.exec (h : Alike s u) (hs : s.cursorsAgree) (i : Instr) : AlikeOutcomes (exec i s) (exec i u) := by
  cases i with
  | record rep span => exact h.execRecord hs rep span
  | lit n =>
    simp only [Machine.exec, execLit]
    refine h.runToken fun e => ?_
    have := covered_le hs (j := 1 + n.toNat) (covered_of_passed .sourceOverrun e (by simp))
    rw [← h.srcPos]
    exact (h.consume 1).copyLit (by rw [consume_srcLenRun]; omega)
  | fill m v =>
    simp only [Machine.exec, execFill]
    exact h.runToken fun _ => (h.consume 3).fillRun v m.toNat
  | endPage =>
    simp only [Machine.exec, execEndPage]
    exact h.runToken fun _ => .ok (h.consume 2).finishOk
  | br1 nr len off => exact h.runBackRef hs 2 nr.toNat len.toNat off.toNat
  | br2 len off =>
    simp only [Machine.exec, execBr2, ← h.dstPos]
    refine h.runToken fun e => ?_
    obtain ⟨hw, ho⟩ : off.toNat ≤ s.dstPos.toNat ∧ (off.toNat = 0 → len.toNat = 0) := backRef_of_passed e (by simp)
    exact (h.consume 2).copyBack hw ho
  | br3 nr len off => exact h.runBackRef hs 3 nr.toNat len.toNat off.toNat

/-! ### Steps and runs -/

theorem Alike.fetch (h : Alike s u) (hs : s.cursorsAgree) : s.fetch = u.fetch := by
  have hb : s.fetchBytes = u.fetchBytes := by
    have := covered_le hs (Nat.le_refl _)
    simp only [State.fetchBytes, ← h.srcPos, ← h.srcBudget]
    exact knownBytes_congr fun j hj => h.inp _ (by omega)
  simp only [State.fetch, ← hb, ← h.srcPos, ← h.srcBudget, ← h.algRun]

theorem Alike.engineStep (h : Alike s u) (hs : s.cursorsAgree) (hr : s.runState = .run) :
    AlikeOutcomes (engineStep s) (engineStep u) := by
  rw [engineStep_run hr, engineStep_run (h.runState ▸ hr), ← h.fetch hs]
  cases s.fetch with
  | endOfSource =>
    simp only [runFetched, ← h.algRun]
    cases s.algRun with
    | v1 => exact .next h.finishOk
    | v2 => exact .next (h.raiseFault _)
  | cutShort => exact .next (h.raiseFault _)
  | unwritten a => exact .fault _
  | token i => exact (h.latch i).exec hs i

theorem EngineEffect.cursorsAgree {t : State} (hs : s.cursorsAgree) (h : EngineEffect s t) : t.cursorsAgree := by
  cases h with
  | halted => exact hs
  | cleanEnd => exact hs
  | exhausted => exact hs
  | token hr i hf _ ht => exact ht.cursorsAgree (s := s.latch i) hs

/-- Alike states in which a run has just ended, with the cursors in the counts, report the same result. -/
theorem Alike.sameResult {t v : State} (h : Alike t v) (ht : t.dstCount = t.dstPos ∧ t.srcCount = t.srcPos)
    (hv : v.dstCount = v.dstPos ∧ v.srcCount = v.srcPos) : sameResult (.next t) (.next v) := by
  refine ⟨h.runState, h.errCode, fun _ => ⟨?_, ?_, ?_⟩⟩
  · rw [ht.1, hv.1, h.dstPos]
  · rw [ht.2, hv.2, h.srcPos]
  · rw [ht.1]; exact h.out

/-- Runs from alike states in a run answer alike. -/
theorem Alike.run (n : Nat) (h : Alike s u) (hs : s.cursorsAgree) (hr : s.runState = .run) (ht : s.turns = [])
    (hu : u.turns = []) : Machine.sameResult (Sys2Proof.core.run n s) (Sys2Proof.core.run n u) := by
  induction n generalizing s u with
  | zero => exact ⟨h.runState, h.errCode, fun hb => absurd hr (not_run_of_not_busy hb)⟩
  | succ n ih =>
    have hst := step_nil ht
    have hsu := step_nil hu
    rcases (h.engineStep hs hr).inv with ⟨f, es, eu⟩ | ⟨t, v, es, eu, h'⟩
    · rw [run_fault n (hst.trans es), run_fault n (hsu.trans eu)]
      exact rfl
    · rw [run_next n (hst.trans es), run_next n (hsu.trans eu)]
      have tt := (turns_of_engineStep es).trans ht
      have tv := (turns_of_engineStep eu).trans hu
      by_cases e : t.runState = .run
      · exact ih h' ((engineStep_effect (fun _ => hs) es).cursorsAgree hs) e tt tv
      · have e' : v.runState ≠ .run := h'.runState ▸ e
        rw [run_halted e tt, run_halted e' tv]
        exact h'.sameResult (counts_of_engineStep hr es e) (counts_of_engineStep (h.runState ▸ hr) eu e')

end Sys2Proof.Machine
end

section
/-! PROOFS. What a run's result depends on. -/

namespace Sys2Proof.Machine

/-- A legal START leaves alike states where the inputs of the run are alike. -/
theorem alike_startRun {s u : State} (hl : s.srcLen.toNat ≤ pageSize) (ha : s.alg = u.alg) (hn : s.srcLen = u.srcLen)
    (hp : s.v1DstCheck = u.v1DstCheck) (hi : ∀ a, a < s.srcLen.toNat → s.inp.read a = u.inp.read a) :
    Alike (startRun s) (startRun u) := by
  rw [startRun_legal hl, startRun_legal (hn ▸ hl)]
  exact ⟨rfl, rfl, rfl, rfl, hn, rfl, hn, ha, hp, hi, fun a h => absurd h (Nat.not_lt_zero a)⟩

/-- After an illegal START the engine's turns change nothing (R201). -/
theorem run_illegalStart {s : State} (h : pageSize < s.srcLen.toNat) (ht : s.turns = []) (n : Nat) :
    Sys2Proof.core.run n (startRun s) =
      .next { s with dstCount := 0, srcCount := 0, runState := .doneErr, errCode := 5 } := by
  rw [startRun_illegal h]
  refine run_halted ?_ ?_ n
  · nofun
  · exact ht

/-- Settles O40: a legal START leaves alike states, and runs from alike states answer alike; an illegal one ends at once. -/
theorem resultDependsOnlyOnTheInputs : Obligations.ResultDependsOnlyOnTheInputs := by
  unfold Obligations.ResultDependsOnlyOnTheInputs
  intro s u n ht hu ha hn hp hi
  by_cases hl : s.srcLen.toNat ≤ pageSize
  · have h := alike_startRun hl ha hn hp hi
    have hc := startRun_cursorsAgree hl
    have hr : (startRun s).runState = .run ∧ (startRun s).turns = [] := by rw [startRun_legal hl]; exact ⟨rfl, ht⟩
    have hr' : (startRun u).turns = [] := by rw [startRun_legal (hn ▸ hl)]; exact hu
    exact h.run n hc hr.1 hr.2 hr'
  · have hl' := Nat.lt_of_not_le hl
    rw [run_illegalStart hl' ht, run_illegalStart (hn ▸ hl') hu]
    exact ⟨rfl, rfl, fun _ => ⟨rfl, rfl, fun a h => absurd h (Nat.not_lt_zero a)⟩⟩

end Sys2Proof.Machine
end

section
/-! PROOFS. The extractor finds the token that the encoder wrote, whatever follows its fixed bytes; so the engine's step runs the
token that stands at the source cursor. -/

namespace Sys2Proof

/-! ### The fields of the control bytes -/

/-- A biased length of 3 bits (R101). -/
theorem biased3_of_range {len : BitVec 6} (h : 3 ≤ len.toNat) (h' : len.toNat ≤ 10) :
    ((len - 3).extractLsb' 0 3).setWidth 6 + 3 = len := by
  revert len; decide

/-- A biased length of 2 bits (R102). -/
theorem biased2_of_range {len : BitVec 6} (h : 3 ≤ len.toNat) (h' : len.toNat ≤ 6) :
    ((len - 3).extractLsb' 0 2).setWidth 6 + 3 = len := by
  revert len; decide

/-- A value is its low field extended, when that field holds all of it. -/
theorem setWidth_lowField {w n : Nat} (x : BitVec w) (h : x.toNat < 2 ^ n) : (x.extractLsb' 0 n).setWidth w = x := by
  apply BitVec.eq_of_toNat_eq
  rw [BitVec.toNat_setWidth, toNat_field, pow_zero, Nat.div_one, Nat.mod_eq_of_lt h, Nat.mod_eq_of_lt x.isLt]

/-- The high and the low field of a value, put together again. -/
theorem highField_cat_lowField {a b : Nat} (x : BitVec (b + a)) : x.extractLsb' a b ++ x.extractLsb' 0 a = x := by
  rw [BitVec.extractLsb'_append_extractLsb'_eq_extractLsb' (Nat.zero_add a).symm, BitVec.extractLsb'_eq_self]

/-- The offset of shape 1, split after its lowest bit (R101). -/
theorem offset9_of_range {off : BitVec 12} (h : off.toNat ≤ 511) :
    (off.extractLsb' 1 8 ++ off.extractLsb' 0 1).setWidth 12 = off := by
  apply BitVec.eq_of_toNat_eq
  rw [BitVec.toNat_setWidth, toNat_cat, toNat_field, toNat_field]
  omega

/-- The fields of a first control byte made of four (R101). -/
theorem fields_of_four (x : BitVec 1) (y : BitVec 3) (z t : BitVec 2) :
    (x ++ y ++ z ++ t).extractLsb' 0 2 = t ∧ (x ++ y ++ z ++ t).extractLsb' 2 2 = z ∧
      (x ++ y ++ z ++ t).extractLsb' 4 3 = y ∧ (x ++ y ++ z ++ t).extractLsb' 7 1 = x := by
  refine ⟨?_, ?_, ?_, ?_⟩ <;> apply BitVec.eq_of_toNat_eq <;> simp only [toNat_field, toNat_cat] <;> omega

/-- The fields of a first control byte made of three: its tag, the middle field, the high one (R102, R103). -/
theorem fields_of_three {a b : Nat} (x : BitVec a) (y : BitVec b) (t : BitVec 2) :
    (x ++ y ++ t).extractLsb' 0 2 = t ∧ (x ++ y ++ t).extractLsb' 2 b = y ∧ (x ++ y ++ t).extractLsb' (b + 2) a = x := by
  refine ⟨BitVec.extractLsb'_append_eq_right, ?_, ?_⟩
  · rw [BitVec.extractLsb'_append_eq_of_le (Nat.le_refl 2), BitVec.extractLsb'_append_eq_right]
  · rw [BitVec.extractLsb'_append_eq_of_le (Nat.le_add_left 2 b), Nat.add_sub_cancel, BitVec.extractLsb'_append_eq_left]

/-! ### The four shapes -/

theorem decodeV2_of_tag0 {b : Byte} (h : b.extractLsb' 0 2 = 0#2) (bs : List Byte) :
    decodeV2 (b :: bs) = decodeShape0 b bs := if_pos h

theorem decodeV2_of_tag1 {b : Byte} (h : b.extractLsb' 0 2 = 1#2) (bs : List Byte) :
    decodeV2 (b :: bs) = decodeShape1 b bs := by simp [decodeV2, h]

theorem decodeV2_of_tag2 {b : Byte} (h : b.extractLsb' 0 2 = 2#2) (bs : List Byte) :
    decodeV2 (b :: bs) = decodeShape2 b bs := by simp [decodeV2, h]

theorem decodeV2_of_tag3 {b : Byte} (h : b.extractLsb' 0 2 = 3#2) (bs : List Byte) :
    decodeV2 (b :: bs) = decodeShape3 b bs := by simp [decodeV2, h]

/-- Once for all tokens: decoding what the encoder wrote gives the token and the bytes after it (R110). -/
theorem decode_encode_append {i : Instr} (h : i.wf = true) (rest : List Byte) :
    decode i.grammar (encode i ++ rest) = .token i rest := by
  cases i with
  | record rep span =>
    have hr := highField_cat_lowField (a := 8) (b := 8) rep
    have hs := highField_cat_lowField (a := 8) (b := 8) span
    simp only [Instr.grammar, decode, encode, List.cons_append, List.nil_append, decodeV1, hr, hs]
  | lit n =>
    have ht : (n ++ 0#2).extractLsb' 0 2 = 0#2 := BitVec.extractLsb'_append_eq_right
    have hn : (n ++ 0#2).extractLsb' 2 6 = n := BitVec.extractLsb'_append_eq_left
    have h0 : n ≠ 0 := by simpa [Instr.wf] using h
    simp only [Instr.grammar, decode, encode, List.cons_append, List.nil_append, decodeV2_of_tag0 ht, decodeShape0]
    rw [hn, if_pos h0]
  | fill m v =>
    have h0 : m ≠ 0 := by simpa [Instr.wf] using h
    simp only [Instr.grammar, decode, encode, List.cons_append, List.nil_append,
      decodeV2_of_tag0 (show (0 : Byte).extractLsb' 0 2 = 0#2 from rfl), decodeShape0]
    simpa using h0
  | endPage => rfl
  | br1 nr len off =>
    simp only [Instr.wf, Bool.and_eq_true, decide_eq_true_eq] at h
    obtain ⟨⟨⟨hn, hl⟩, hl'⟩, ho⟩ := h
    obtain ⟨ht, h1, h2, h3⟩ := fields_of_four (off.extractLsb' 0 1) ((len - 3).extractLsb' 0 3) (nr.extractLsb' 0 2) 1#2
    simp only [Instr.grammar, decode, encode, List.cons_append, List.nil_append, decodeV2_of_tag1 ht, decodeShape1, h1, h2,
      h3, biased3_of_range hl hl', offset9_of_range ho, setWidth_lowField nr (show nr.toNat < 2 ^ 2 by omega)]
  | br2 len off =>
    simp only [Instr.wf, Bool.and_eq_true, decide_eq_true_eq] at h
    obtain ⟨ht, h1, h2⟩ := fields_of_three (off.extractLsb' 0 4) ((len - 3).extractLsb' 0 2) 2#2
    have ho := highField_cat_lowField (a := 4) (b := 8) off
    simp only [Instr.grammar, decode, encode, List.cons_append, List.nil_append, decodeV2_of_tag2 ht, decodeShape2, h1, h2,
      ho, biased2_of_range h.1 h.2]
  | br3 nr len off =>
    obtain ⟨ht, h1, h2⟩ := fields_of_three (len.extractLsb' 0 2) nr 3#2
    have h3 : (off.extractLsb' 0 4 ++ len.extractLsb' 2 4).extractLsb' 0 4 = len.extractLsb' 2 4 :=
      BitVec.extractLsb'_append_eq_right
    have h4 : (off.extractLsb' 0 4 ++ len.extractLsb' 2 4).extractLsb' 4 4 = off.extractLsb' 0 4 :=
      BitVec.extractLsb'_append_eq_left
    have hl := highField_cat_lowField (a := 2) (b := 4) len
    have ho := highField_cat_lowField (a := 4) (b := 8) off
    simp only [Instr.grammar, decode, encode, List.cons_append, List.nil_append, decodeV2_of_tag3 ht, decodeShape3, h1, h2,
      h3, h4, hl, ho]

end Sys2Proof
end

section
/-! PROOFS. The engine's step runs the token that the bytes at the source cursor decode to. -/

namespace Sys2Proof.Machine

/-- Where the bytes at the source cursor decode to a token, the fetch finds it (R26). -/
theorem fetch_of_decode {s : State} {i : Instr} {rest : List Byte} (hb : 0 < s.srcBudget.toNat)
    (h : decode s.algRun s.fetchBytes = .token i rest) : s.fetch = .token i := by
  rw [State.fetch, if_neg (Nat.ne_of_gt hb), h]

/-- A fetched token is executed with its fields latched (R203). -/
theorem engineStep_of_fetch {s : State} {i : Instr} (hr : s.runState = .run) (h : s.fetch = .token i) :
    engineStep s = exec i (s.latch i) := by
  rw [engineStep_run hr, h, runFetched]

/-- Settles O25: both ways to get the turn are the engine's, which runs what its fetch finds. -/
theorem stepRunsTheDecodedToken : Obligations.StepRunsTheDecodedToken := by
  unfold Obligations.StepRunsTheDecodedToken
  intro s i rest hr hb h
  have hf := fetch_of_decode hb h
  exact ⟨fun ht => (step_nil ht).trans (engineStep_of_fetch hr hf),
    fun ts ht => (step_engine ht).trans (engineStep_of_fetch (s := { s with turns := ts }) hr hf)⟩

/-- Bytes that stand in a buffer head what is known there. -/
theorem knownBytes_append {m : Memory} {a k : Nat} {bs : List Byte} (hk : bs.length ≤ k)
    (h : ∀ j, j < bs.length → m.read (a + j) = bs[j]?) : ∃ rest, knownBytes m a k = bs ++ rest := by
  induction bs generalizing a k with
  | nil => exact ⟨_, rfl⟩
  | cons b bs ih =>
    obtain ⟨k, rfl⟩ : ∃ k', k = k' + 1 := Nat.exists_eq_add_one.mpr (Nat.lt_of_lt_of_le (Nat.succ_pos _) hk)
    have h0 : m.read a = some b := h 0 (Nat.succ_pos _)
    obtain ⟨rest, e⟩ := ih (a := a + 1) (Nat.le_of_succ_le_succ hk) fun j hj => by
      rw [Nat.add_right_comm, Nat.add_assoc, h (j + 1) (Nat.succ_lt_succ hj), List.getElem?_cons_succ]
    exact ⟨rest, by simp only [knownBytes, h0, e, List.cons_append]⟩

/-- Settles O26: the bytes the fetch looks at begin with the token's fixed bytes, which decode to it. -/
theorem storedTokenIsRun : Obligations.StoredTokenIsRun := by
  unfold Obligations.StoredTokenIsRun
  intro s i hr ht hw hg hl hm
  have h4 := fixedLength_le_four i
  have hp := fixedLength_pos i
  obtain ⟨rest, e⟩ := knownBytes_append (m := s.inp) (a := s.srcPos.toNat) (k := min 4 s.srcBudget.toNat) (bs := encode i)
    (by rw [length_encode]; omega) (by rwa [length_encode])
  have hd : decode s.algRun s.fetchBytes = .token i rest := by
    rw [State.fetchBytes, e, ← hg, decode_encode_append hw]
  exact (stepRunsTheDecodedToken s i rest hr (by omega) hd).1 ht

end Sys2Proof.Machine
end

section
/-! PROOFS. The registers at the host's port: what a register access is as a step, what each register reads, and what a
`CTRL` write leaves. -/

namespace Sys2Proof.Machine

/-! ### Register accesses as steps -/

section
variable {s : State} {o : PortOffset} {ts : List Turn}

/-- A 4-byte write at an aligned register offset is accepted and does what its place says (R29, R62). -/
theorem step_writeRegister {v : Word} (ht : s.turns = .host (.write o (.word v)) :: ts) (h : o.toNat % 4 = 0)
    (hr : 0x2000 ≤ o.toNat) : step s = .next (portWrite (portPlace o) (.word v) { s with turns := ts }) := by
  have e : State.portRefusal { s with turns := ts } o (PortData.word v).width = none := portRefusal_register h hr
  rw [step_host ht, hostStep, hostWrite, e]

/-- A 4-byte read at an aligned register offset is accepted, and only the record and the draws change (R62, R65). -/
theorem step_readRegister (ht : s.turns = .host (.read o .word) :: ts) (h : o.toNat % 4 = 0) (hr : 0x2000 ≤ o.toNat) :
    step s = .next { s with
      turns := ts, reads := (portRead (portPlace o) .word { s with turns := ts }).1 :: s.reads,
      draws := (portRead (portPlace o) .word { s with turns := ts }).2 } := by
  have e : State.portRefusal { s with turns := ts } o .word = none := portRefusal_register h hr
  rw [step_host ht, hostStep, hostRead, e]

theorem step_writeCtrl {v : Word} (ht : s.turns = .host (.write 0x2000 (.word v)) :: ts) :
    step s = .next (writeCtrl v { s with turns := ts }) := step_writeRegister ht (by decide) (by decide)

theorem step_writeSrcLen {v : Word} (ht : s.turns = .host (.write 0x2004 (.word v)) :: ts) :
    step s = .next (writeSrcLen v { s with turns := ts }) := step_writeRegister ht (by decide) (by decide)

end

/-- From the status register on, no register is writable (R37 to R40). -/
theorem portWrite_readOnly {o : PortOffset} (h : 0x2008 ≤ o.toNat) (d : PortData) (s : State) :
    portWrite (portPlace o) d s = s := by
  unfold portPlace
  rw [if_neg (by omega), if_neg (by omega), if_neg (by omega), if_neg (by omega)]
  (repeat' split) <;> rfl

theorem portPlace_reserved {o : PortOffset} (h : 0x2014 ≤ o.toNat) : portPlace o = .reserved := by
  unfold portPlace
  rw [if_neg (by omega), if_neg (by omega), if_neg (by omega), if_neg (by omega), if_neg (by omega), if_neg (by omega),
    if_neg (by omega)]

/-- `CTRL` stands at one offset only (R29). -/
theorem eq_of_portPlace_ctrl {o : PortOffset} (h : portPlace o = .ctrl) : o = 0x2000 := by
  unfold portPlace at h
  apply BitVec.eq_of_toNat_eq
  (repeat' split at h) <;> simp_all

/-! ### What the registers read -/

theorem countWord_toNat (c : Cursor) : (countWord c).toNat = c.toNat := by
  rw [countWord, toNat_cat]; simp

theorem srcLenWord_toNat (s : State) : s.srcLenWord.toNat = s.srcLen.toNat := by
  rw [State.srcLenWord, toNat_cat]; simp

theorem ctrlWord_toNat (s : State) :
    s.ctrlWord.toNat = (if s.alg = .v2 then 2 else 0) + (if s.irqEn then 4 else 0) := by
  simp only [State.ctrlWord, toNat_cat]
  cases s.alg <;> cases s.irqEn <;> rfl

theorem statusWord_toNat (s : State) :
    s.statusWord.toNat = 16 * s.errCode.toNat + 4 * s.err.toNat + 2 * s.done.toNat + s.busy.toNat := by
  simp only [State.statusWord, toNat_cat, BitVec.toNat_ofBool, BitVec.toNat_ofNat]
  omega

/-- The count registers while not BUSY (R38, R39). -/
theorem hostCount_exact {s : State} (h : s.busy = false) (c : Cursor) : s.hostCount c = (countWord c, s.draws) := by
  simp [State.hostCount, h]

/-- The count registers while BUSY (R47). -/
theorem hostCount_draw {s : State} (h : s.busy = true) (c : Cursor) :
    s.hostCount c = (countWord (Config.drawCount s.draws), s.draws + 1) := by
  simp [State.hostCount, h]

/-- Settles O52: the word read in arithmetic, by the four run states. -/
theorem statusReadsTheRunState : Obligations.StatusReadsTheRunState := by
  unfold Obligations.StatusReadsTheRunState
  intro s ts ht
  refine ⟨s.statusWord, step_readRegister ht (by decide) (by decide), ?_⟩
  rw [statusWord_toNat]
  refine ⟨fun h => ?_, fun h => ?_, fun h => ?_, fun h => ?_⟩ <;> simp [State.busy, State.done, State.err, h] <;> omega

/-- Settles O53: the word read in arithmetic. -/
theorem controlReadsBack : Obligations.ControlReadsBack := by
  unfold Obligations.ControlReadsBack
  intro s ts ht
  exact ⟨s.ctrlWord, step_readRegister ht (by decide) (by decide), ctrlWord_toNat s⟩

/-- A read of a count register, with the count that stands there. -/
theorem step_readCount {s : State} {o : PortOffset} {ts : List Turn} (ht : s.turns = .host (.read o .word) :: ts)
    (ho : o = 0x200C ∨ o = 0x2010) :
    step s = .next { s with
      turns := ts, reads := .word (s.hostCount (if o = 0x200C then s.dstCount else s.srcCount)).1 :: s.reads,
      draws := (s.hostCount (if o = 0x200C then s.dstCount else s.srcCount)).2 } := by
  rcases ho with rfl | rfl
  · exact step_readRegister ht (by decide) (by decide)
  · exact step_readRegister ht (by decide) (by decide)

/-- Settles O54: a count, or a draw of its width, with zeros above. -/
theorem countRegistersRead : Obligations.CountRegistersRead := by
  unfold Obligations.CountRegistersRead
  intro s ts o ht ho
  have hs := step_readCount ht ho
  refine ⟨(s.hostCount (if o = 0x200C then s.dstCount else s.srcCount)).1, ?_, fun hb => ?_, fun hb => ?_⟩
  · cases hb : s.busy
    · rw [hostCount_exact hb, countWord_toNat]; exact BitVec.isLt _
    · rw [hostCount_draw hb, countWord_toNat]; exact BitVec.isLt _
  · rw [hostCount_exact hb] at hs ⊢
    refine ⟨hs, ?_⟩
    rw [countWord_toNat]
    split <;> rfl
  · rw [hostCount_draw hb] at hs ⊢
    exact hs

/-- Settles O51: no write reaches a read-only or reserved place, and a reserved one reads 0. -/
theorem reservedReadsZeroAndIgnoresWrites : Obligations.ReservedReadsZeroAndIgnoresWrites := by
  unfold Obligations.ReservedReadsZeroAndIgnoresWrites
  intro s o v ts h4 ho
  refine ⟨fun ht => ?_, fun hr ht => ?_⟩
  · rw [step_writeRegister ht h4 (by omega), portWrite_readOnly ho]
  · rw [step_readRegister ht h4 (by omega), portPlace_reserved hr]
    rfl

/-! ### What the writable registers store -/

theorem writeSrcLen_stores {s : State} (h : s.busy = false) (v : Word) :
    writeSrcLen v s = { s with srcLen := v.setWidth 13 } := by
  simp [writeSrcLen, h]

/-- Settles O50: the write stores the low 13 bits, and the read that follows returns them. -/
theorem sourceLengthIsStoredAsWritten : Obligations.SourceLengthIsStoredAsWritten := by
  unfold Obligations.SourceLengthIsStoredAsWritten
  intro s v ts hb ht
  have hlen : (v.setWidth 13).toNat = v.toNat % 8192 := by rw [BitVec.toNat_setWidth]
  refine ⟨{ s with srcLen := v.setWidth 13, turns := .host (.read 0x2004 .word) :: ts }, _, ?_, rfl, hlen,
    step_readRegister (o := 0x2004) rfl (by decide) (by decide), ?_⟩
  · rw [step_writeSrcLen ht, writeSrcLen_stores]
    exact hb
  · exact (srcLenWord_toNat _).trans hlen

/-- While BUSY the port's register writes change nothing (R35). -/
theorem writeCtrl_busy {s : State} (h : s.busy = true) (v : Word) : writeCtrl v s = s := by simp [writeCtrl, h]

theorem writeSrcLen_busy {s : State} (h : s.busy = true) (v : Word) : writeSrcLen v s = s := by simp [writeSrcLen, h]

/-- Settles O49: each of the two writes is the step, and is ignored. -/
theorem writesWhileBusyAreIgnored : Obligations.WritesWhileBusyAreIgnored := by
  unfold Obligations.WritesWhileBusyAreIgnored
  intro s v ts hb ht
  rcases ht with ht | ht
  · rw [step_writeCtrl ht, writeCtrl_busy]
    exact hb
  · rw [step_writeSrcLen ht, writeSrcLen_busy]
    exact hb

/-- A `CTRL` write without START (R30, R34). -/
theorem writeCtrl_noStart {s : State} {v : Word} (h : s.busy = false) (h0 : v.getLsbD 0 = false) :
    writeCtrl v s = if v.getLsbD 3
      then clearRun { s with alg := algOfBit (v.getLsbD 1), irqEn := v.getLsbD 2 }
      else { s with alg := algOfBit (v.getLsbD 1), irqEn := v.getLsbD 2 } := by
  simp only [writeCtrl, performCtrl, h, h0, Bool.false_eq_true, if_false]

/-- Settles O48: the step is the `CTRL` write, by the two cases of CLEAR. -/
theorem clearReturnsToIdle : Obligations.ClearReturnsToIdle := by
  unfold Obligations.ClearReturnsToIdle
  intro s v ts ht hb h0
  have hw := writeCtrl_noStart (s := { s with turns := ts }) hb h0
  refine ⟨fun h3 => ?_, fun h3 => ?_⟩
  · rw [step_writeCtrl ht, hw, if_pos h3]
    rfl
  · rw [step_writeCtrl ht, hw, if_neg (Bool.eq_false_iff.mp h3)]

theorem startRun_irqEn (s : State) : (startRun s).irqEn = s.irqEn := by
  unfold startRun; split <;> rfl

/-- START begins a run exactly if the length is legal (R201). -/
theorem startRun_runState (s : State) :
    (startRun s).runState = if s.srcLen.toNat ≤ pageSize then .run else .doneErr := by
  split
  · next h => rw [startRun_legal h]
  · next h => rw [startRun_illegal (Nat.lt_of_not_le h)]

/-- The run state that a `CTRL` write leaves: START wins over CLEAR (R30, R31, R34). -/
theorem writeCtrl_runState {s : State} (h : s.busy = false) (v : Word) :
    (writeCtrl v s).runState =
      if v.getLsbD 0 then (if s.srcLen.toNat ≤ pageSize then .run else .doneErr)
      else if v.getLsbD 3 then .idle else s.runState := by
  simp only [writeCtrl, h, performCtrl]
  cases v.getLsbD 0 with
  | true => cases v.getLsbD 3 <;> exact startRun_runState _
  | false => cases v.getLsbD 3 <;> rfl

theorem writeCtrl_irqEn {s : State} (h : s.busy = false) (v : Word) : (writeCtrl v s).irqEn = v.getLsbD 2 := by
  simp only [writeCtrl, h, performCtrl]
  cases v.getLsbD 0 with
  | true => cases v.getLsbD 3 <;> exact startRun_irqEn _
  | false => cases v.getLsbD 3 <;> rfl

theorem doneIrq_iff (s : State) :
    s.doneIrq = true ↔ (s.runState = .doneOk ∨ s.runState = .doneErr) ∧ s.irqEn = true := by
  unfold State.doneIrq State.done
  cases s.runState <;> simp

/-- Settles O59: CLEAR leaves IDLE and a legal START leaves RUN, in which the level is low, and so it is without `IRQ_EN`. -/
theorem completionSignalIsALevel : Obligations.CompletionSignalIsALevel := by
  unfold Obligations.CompletionSignalIsALevel
  intro s
  refine ⟨doneIrq_iff s, fun v ts ht hb hv => ⟨_, step_writeCtrl ht, ?_⟩⟩
  have hr := writeCtrl_runState (s := { s with turns := ts }) hb v
  have hi := writeCtrl_irqEn (s := { s with turns := ts }) hb v
  rw [← Bool.not_eq_true, doneIrq_iff]
  rintro ⟨hd, he⟩
  rcases hv with ⟨h0, h3⟩ | ⟨h0, hl⟩ | h2
  · rw [hr, if_neg (Bool.eq_false_iff.mp h0), if_pos h3] at hd
    exact hd.elim nofun nofun
  · rw [hr, if_pos h0, if_pos hl] at hd
    exact hd.elim nofun nofun
  · exact absurd (hi.symm.trans he) (Bool.eq_false_iff.mp h2)

/-! ### Who begins and who ends a run -/

/-- A host write changes the run state only at `CTRL`, and only while not BUSY. -/
theorem portWrite_runState {p : PortPlace} {d : PortData} {s : State} (h : p ≠ .ctrl ∨ s.busy = true) :
    (portWrite p d s).runState = s.runState := by
  cases p with
  | ctrl =>
    have hb : s.busy = true := h.resolve_left (fun e => e rfl)
    cases d with
    | word v => exact congrArg State.runState (writeCtrl_busy hb v)
    | byte v => rfl
    | half v => rfl
  | srcLen =>
    cases d with
    | word v => simp only [portWrite, writeSrcLen]; split <;> rfl
    | byte v => rfl
    | half v => rfl
  | inp a => rfl
  | out a => rfl
  | status => rfl
  | dstCount => rfl
  | srcCount => rfl
  | reserved => rfl

theorem busy_congr {s t : State} (h : t.runState = s.runState) : t.busy = s.busy := by rw [State.busy, h, State.busy]

/-- The host's move that begins a run is START with a legal length. -/
theorem HostEffect.begins {s t : State} {a : HostAction} (h : HostEffect s a t) (hs : s.busy = false)
    (ht : t.busy = true) : ∃ v, a = .write 0x2000 (.word v) ∧ v.getLsbD 0 = true ∧ s.srcLen.toNat ≤ pageSize := by
  cases h with
  | write o d hp =>
    by_cases hc : portPlace o = .ctrl
    · obtain rfl := eq_of_portPlace_ctrl hc
      cases d with
      | word v =>
        have hr : (writeCtrl v s).runState = .run := (busy_iff _).mp ht
        rw [writeCtrl_runState hs] at hr
        have hn := not_run_of_not_busy hs
        split at hr
        · next h0 =>
          split at hr
          · next hl => exact ⟨v, rfl, h0, hl⟩
          · cases hr
        · split at hr
          · cases hr
          · exact absurd hr hn
      | byte v => exact absurd (hs.symm.trans ht) nofun
      | half v => exact absurd (hs.symm.trans ht) nofun
    · rw [busy_congr (portWrite_runState (.inl hc)), hs] at ht
      cases ht
  | read o w hp => exact absurd (hs.symm.trans ht) nofun
  | reset => cases ht

/-- Settles O41: a halted engine's turn changes nothing, and of the host's moves only START begins a run. -/
theorem onlyStartBeginsARun : Obligations.OnlyStartBeginsARun := by
  unfold Obligations.OnlyStartBeginsARun
  intro s t hs h ht
  have hn := not_run_of_not_busy hs
  match hts : s.turns with
  | [] =>
    rw [step_nil hts] at h
    obtain rfl := eq_of_engineStep_halted h hn
    exact absurd (hs.symm.trans ht) nofun
  | .engine :: ts =>
    rw [step_engine hts] at h
    obtain rfl := eq_of_engineStep_halted h hn
    exact absurd (hs.symm.trans ht) nofun
  | .host a :: ts =>
    rw [step_host hts] at h
    obtain ⟨v, rfl, h0, hl⟩ := (hostStep_effect h).begins hs ht
    exact ⟨v, ts, rfl, h0, hl⟩

/-- The move of the outside world that ends a run is reset. -/
theorem HostEffect.ends {s t : State} {a : HostAction} (h : HostEffect s a t) (hs : s.busy = true)
    (ht : t.busy = false) : a = .reset := by
  cases h with
  | write o d hp => rw [busy_congr (portWrite_runState (.inr hs)), hs] at ht; cases ht
  | read o w hp => exact absurd (hs.symm.trans ht) nofun
  | reset => rfl

/-- Settles O42: of the host's moves only reset ends a run. -/
theorem onlyTheEngineOrResetEndsARun : Obligations.OnlyTheEngineOrResetEndsARun := by
  unfold Obligations.OnlyTheEngineOrResetEndsARun
  intro s t hs h ht
  match hts : s.turns with
  | [] => exact .inl rfl
  | .engine :: ts => exact .inr (.inl ⟨ts, rfl⟩)
  | .host a :: ts =>
    rw [step_host hts] at h
    obtain rfl := (hostStep_effect h).ends hs ht
    exact .inr (.inr ⟨ts, rfl⟩)

end Sys2Proof.Machine
end

section
/-! PROOFS. The canonical form of the buffers: equal contents are equal memories; and what reset leaves. -/

namespace Sys2Proof.Machine

/-- An offset below every listed address is unwritten. -/
theorem read_below {m : Memory} {a : Nat} (h : ∀ c ∈ m, a < c.1) : m.read a = none := by
  induction m with
  | nil => rfl
  | cons c m ih =>
    obtain ⟨h0, hm⟩ := List.forall_mem_cons.mp h
    rw [Memory.read, if_neg (Nat.ne_of_lt h0), ih hm]

@[simp] theorem read_head (k : Nat) (b : Byte) (m : Memory) : Memory.read ((k, b) :: m) k = some b := if_pos rfl

theorem read_tail {a k : Nat} (h : a ≠ k) (b : Byte) (m : Memory) : Memory.read ((k, b) :: m) a = m.read a := if_neg h

/-- In a memory of rising addresses the first listed one is the lowest that is known. -/
theorem read_before_head {k a : Nat} {b : Byte} {m : Memory} (h : ∀ c ∈ m, k < c.1) (ha : a < k) :
    Memory.read ((k, b) :: m) a = none :=
  read_below (List.forall_mem_cons.mpr ⟨ha, fun c hc => Nat.lt_trans ha (h c hc)⟩)

/-- Memories of rising addresses and equal contents are equal. -/
theorem eq_of_read_eq {m n : Memory} (hm : m.Pairwise (fun x y => x.1 < y.1)) (hn : n.Pairwise (fun x y => x.1 < y.1))
    (h : ∀ a, m.read a = n.read a) : m = n := by
  induction m generalizing n with
  | nil =>
    match n with
    | [] => rfl
    | (l, c) :: n => exact absurd (h l) (by simp)
  | cons e m ih =>
    obtain ⟨k, b⟩ := e
    obtain ⟨hk, hm'⟩ := List.pairwise_cons.mp hm
    match n, hn, h with
    | [], _, h => exact absurd (h k) (by simp)
    | (l, c) :: n, hn, h =>
      obtain ⟨hl, hn'⟩ := List.pairwise_cons.mp hn
      have hkl : k = l := by
        rcases Nat.lt_trichotomy k l with hlt | heq | hlt
        · exact absurd (h k) (by rw [read_head, read_before_head hl hlt]; simp)
        · exact heq
        · exact absurd (h l) (by rw [read_head, read_before_head hk hlt]; simp)
      subst hkl
      have hbc : b = c := by simpa using h k
      have hmn : ∀ a, Memory.read m a = Memory.read n a := fun a => by
        by_cases ha : a = k
        · subst ha; rw [read_below hk, read_below hl]
        · rw [← read_tail ha b m, ← read_tail ha c n, h a]
      rw [hbc, ih hm' hn' hmn]

/-- Settles O60: the buffers' laws, and that rising addresses leave one list for equal contents. -/
theorem memoryIsCanonical : Obligations.MemoryIsCanonical := by
  unfold Obligations.MemoryIsCanonical
  exact ⟨read_write, fun _ _ v => wf_write v, fun _ _ hm hn h => eq_of_read_eq hm.1 hn.1 h⟩

/-- Settles O45: every value stands in the reset state, and both buffers list no byte. -/
theorem resetLeavesTheSpecValues : Obligations.ResetLeavesTheSpecValues := by
  unfold Obligations.ResetLeavesTheSpecValues
  exact ⟨rfl, rfl, rfl, rfl, rfl, rfl, rfl, rfl, rfl, rfl, rfl, rfl, rfl, read_nil, read_nil, rfl, rfl, rfl⟩

end Sys2Proof.Machine
end

section
/-! PROOFS. Where the model stops: a transfer inside the page stops at one of its reads, a back-reference copy of a run never
does, and a literal byte that is read lies inside the source; so only an unwritten byte of the source stops a step. -/

namespace Sys2Proof.Machine

/-- The stop `f` names an `IN` byte of the source, at or past the source cursor, that nothing has written (R66, R255). -/
def State.StopsAtUnwritten (s : State) (f : Fault) : Prop :=
  ∃ a, f = .unwrittenInput a ∧ s.srcPos.toNat ≤ a ∧ a < s.srcLenRun.toNat ∧ s.inp.read a = none

/-- Bytes that the destination budget covers lie inside the page (R66, R132). -/
theorem room_le {s : State} {k : Nat} (hs : s.cursorsAgree) (hk : k ≤ s.dstBudget.toNat) :
    s.dstPos.toNat + k ≤ pageSize := by
  obtain ⟨-, -, h⟩ := hs
  omega

/-! ### Transfers -/

/-- Inside the page a transfer stops only at one of its reads, from an `OUT` that is as before below the destination cursor and
known from there up to the byte being written. -/
theorem writeDest_error_read {rd : Nat → Memory → Except Fault Byte} {k : Nat} {s : State} {f : Fault}
    (hb : s.dstPos.toNat + k ≤ pageSize) (h : writeDest rd k s = .error f) :
    ∃ j m, j < k ∧ rd j m = .error f ∧ (∀ a, a < s.dstPos.toNat → Memory.read m a = s.out.read a) ∧
      ∀ a, s.dstPos.toNat ≤ a → a < s.dstPos.toNat + j → (Memory.read m a).isSome = true := by
  obtain ⟨j, m, -, hj, hr, hlow, hnew⟩ := writeRun_error (by omega) (writeDest_error h)
  exact ⟨j, m, by omega, hr, hlow, hnew⟩

/-- A transfer of `IN` bytes that all lie in the source stops only at an unwritten one; `g` is the order in which they are
read. -/
theorem writeDest_readIn_error {s t : State} {a k : Nat} {g : Nat → Nat} {f : Fault}
    (hb : t.dstPos.toNat + k ≤ pageSize) (ha : s.srcPos.toNat ≤ a) (hg : ∀ j, j < k → a + g j < s.srcLenRun.toNat)
    (h : writeDest (fun i _ => readIn s.inp (a + g i)) k t = .error f) : s.StopsAtUnwritten f := by
  obtain ⟨j, -, hj, hr, -, -⟩ := writeDest_error_read hb h
  obtain ⟨rfl, hn⟩ := readIn_error hr
  exact ⟨a + g j, rfl, by omega, hg j hj, hn⟩

theorem copyLit_error {s t : State} {a k : Nat} {f : Fault} (hi : t.inp = s.inp) (hb : t.dstPos.toNat + k ≤ pageSize)
    (ha : s.srcPos.toNat ≤ a) (hk : a + k ≤ s.srcLenRun.toNat) (h : copyLit a k t = .error f) :
    s.StopsAtUnwritten f := by
  rw [copyLit, hi] at h
  exact writeDest_readIn_error (t := consume k t) (g := id) hb ha (fun j hj => by simp only [id]; omega) h

/-- The replayed bytes are those of one span, whatever the number of repetitions (R150). -/
theorem replaySpan_error {s t : State} {a span reps : Nat} {f : Fault} (hi : t.inp = s.inp)
    (hb : t.dstPos.toNat + reps * span ≤ pageSize) (ha : s.srcPos.toNat ≤ a) (hk : a + span ≤ s.srcLenRun.toNat)
    (h : replaySpan a span reps t = .error f) : s.StopsAtUnwritten f := by
  rw [replaySpan, hi] at h
  refine writeDest_readIn_error hb ha (fun j hj => ?_) h
  have hspan : 0 < span := Nat.pos_of_mul_pos_left (Nat.lt_of_le_of_lt (Nat.zero_le j) hj)
  have := Nat.mod_lt j hspan
  omega

theorem fillRun_not_error {s : State} {v : Byte} {k : Nat} (hb : s.dstPos.toNat + k ≤ pageSize) (f : Fault) :
    fillRun v k s ≠ .error f := fun h => by
  obtain ⟨_, _, -, hr, -⟩ := writeDest_error_read hb h
  cases hr

/-- A valid back-reference reads bytes below the cursor, or bytes that the same copy has written (R137). -/
theorem copyBack_not_error {s : State} {off k : Nat} (hw : off ≤ s.dstPos.toNat) (ho : off = 0 → k = 0)
    (hb : s.dstPos.toNat + k ≤ pageSize) (hn : s.out.knownBelow s.dstPos.toNat) (f : Fault) :
    copyBack off k s ≠ .error f := fun h => by
  obtain ⟨j, m, hj, hr, hlow, hnew⟩ := writeDest_error_read hb h
  have hsome : (m.read (s.dstPos.toNat - off + j)).isSome = true := by
    by_cases hl : s.dstPos.toNat - off + j < s.dstPos.toNat
    · rw [hlow _ hl]; exact hn _ hl
    · exact hnew _ (by omega) (by omega)
  obtain ⟨b, hbv⟩ := Option.isSome_iff_exists.mp hsome
  simp [readOut, hbv] at hr

/-! ### Tokens -/

section
variable {s : State} {f : Fault}

theorem commitRecord_error (hs : s.cursorsAgree) {rep span : Nat} (hj : 4 + span ≤ s.srcBudget.toNat)
    (hk : rep * span ≤ s.dstBudget.toNat) (h : commitRecord rep span s = .error f) : s.StopsAtUnwritten f := by
  have hin := covered_le hs hj
  have hroom := room_le hs hk
  exact replaySpan_error (consume_inp _ s) hroom (by omega) (by omega) h

theorem overrunRecord_error (hs : s.cursorsAgree) {span : Nat} (hj : 4 + span ≤ s.srcBudget.toNat)
    (h : overrunRecord span s = .error f) : s.StopsAtUnwritten f := by
  have hin := covered_le hs hj
  simp only [overrunRecord] at h
  split at h
  · next e =>
    obtain rfl := Except.error.inj h
    exact replaySpan_error rfl (room_le hs (Nat.div_mul_le_self _ _)) (by omega) (by omega) e
  · cases h

theorem execRecord_fault (hs : s.cursorsAgree) {rep span : BitVec 16} (h : execRecord rep span s = .fault f) :
    s.StopsAtUnwritten f := by
  simp only [execRecord] at h
  split at h
  · obtain ⟨e, hc⟩ := runToken_fault h
    exact commitRecord_error hs (covered_of_passed .sourceOverrun e (by simp)) (room_of_passed e (by simp)) hc
  · obtain ⟨e, hc⟩ := runToken_fault h
    have hj : 4 + span.toNat ≤ s.srcBudget.toNat := covered_of_passed .sourceOverrun e (by simp)
    split at hc
    · next hfit =>
      refine commitRecord_error hs hj ?_ hc
      rcases hfit with h0 | hq
      · simp [h0]
      · exact (Nat.mul_le_mul_right _ hq).trans (Nat.div_mul_le_self _ _)
    · exact overrunRecord_error hs hj hc

/-- The literals stop at an unwritten byte; the copy after them finds all below the cursor known, the literals included (R137,
R174, R176). -/
theorem runBackRef_fault (hs : s.RunGood) {hdr nr len off : Nat} (h : runBackRef hdr nr len off s = .fault f) :
    s.StopsAtUnwritten f := by
  obtain ⟨e, hc⟩ := runToken_fault h
  have hj : hdr + nr ≤ s.srcBudget.toNat := covered_of_passed .sourceOverrun e (by simp)
  have hk : nr ≤ s.dstBudget.toNat := room_of_passed e (by simp)
  have hk' : nr + len ≤ s.dstBudget.toNat := room_of_passed e (by simp)
  obtain ⟨hw, ho⟩ : off ≤ s.dstPos.toNat + nr ∧ (off = 0 → len = 0) := backRef_of_passed e (by simp)
  have hin := covered_le hs.cursors hj
  have hroom := room_le hs.cursors hk
  cases hl : copyLit (s.srcPos.toNat + hdr) nr (consume hdr s) with
  | error g =>
    rw [hl] at hc
    obtain rfl := Except.error.inj hc
    exact copyLit_error (consume_inp hdr s) hroom (by omega) (by omega) hl
  | ok t =>
    rw [hl] at hc
    simp only [copyLit, consume_consume] at hl
    obtain ⟨m, w, rfl⟩ := writeDest_consume_ok hs.cursors hj hk hl
    have g := hs.afterToken hj hk w
    obtain ⟨-, -, -, hd, hb⟩ := cursorsAgree_afterToken (m := m) hs.cursors hj hk
    exact absurd hc (copyBack_not_error (by omega) ho (room_le g.cursors (by omega)) g.written f)

/-- Once for all tokens of a run: exec stops the model only at an unwritten byte of the source. -/
theorem exec_fault {i : Instr} (hs : s.RunGood) (h : exec i s = .fault f) : s.StopsAtUnwritten f := by
  cases i with
  | record rep span => exact execRecord_fault hs.cursors h
  | lit n =>
    simp only [exec, execLit] at h
    obtain ⟨e, hc⟩ := runToken_fault h
    have hin := covered_le hs.cursors (j := 1 + n.toNat) (covered_of_passed .sourceOverrun e (by simp))
    have hroom := room_le hs.cursors (k := n.toNat) (room_of_passed e (by simp))
    exact copyLit_error (consume_inp 1 s) hroom (by omega) (by omega) hc
  | fill m v =>
    simp only [exec, execFill] at h
    obtain ⟨e, hc⟩ := runToken_fault h
    have hroom := room_le hs.cursors (k := m.toNat) (room_of_passed e (by simp))
    exact absurd hc (fillRun_not_error (s := consume 3 s) hroom f)
  | endPage =>
    simp only [exec, execEndPage] at h
    obtain ⟨-, hc⟩ := runToken_fault h
    cases hc
  | br1 nr len off => exact runBackRef_fault hs h
  | br2 len off =>
    simp only [exec, execBr2] at h
    obtain ⟨e, hc⟩ := runToken_fault h
    obtain ⟨hw, ho⟩ : off.toNat ≤ s.dstPos.toNat ∧ (off.toNat = 0 → len.toNat = 0) := backRef_of_passed e (by simp)
    have hroom := room_le hs.cursors (k := len.toNat) (room_of_passed e (by simp))
    exact absurd hc (copyBack_not_error (s := consume 2 s) hw ho hroom hs.written f)
  | br3 nr len off => exact runBackRef_fault hs h

/-! ### Steps -/

/-- The engine's turn stops in a fetch, or in the token that it fetched. -/
theorem engineStep_fault (hs : s.Inv) (h : engineStep s = .fault f) : s.StopsAtUnwritten f := by
  by_cases hr : s.runState = .run
  · rw [engineStep_run hr] at h
    cases hf : s.fetch with
    | endOfSource => simp only [hf, runFetched] at h; split at h <;> cases h
    | cutShort => simp only [hf, runFetched] at h; cases h
    | unwritten a =>
      simp only [hf, runFetched] at h
      injection h with h
      obtain ⟨hlo, hhi, hn⟩ := fetch_unwritten hf
      exact ⟨a, h.symm, hlo, Nat.lt_of_lt_of_le hhi (covered_le (hs.cursors hr) (Nat.le_refl _)), hn⟩
    | token i =>
      simp only [hf, runFetched] at h
      exact exec_fault (s := s.latch i) ((hs.latch i).runGood hr) h
  · rw [engineStep_idle hr] at h
    cases h

end

/-- Settles O37: no move of the host stops the model, and the engine's turn does so only at an unwritten source byte. -/
theorem engineStaysInsideTheBuffers : Obligations.EngineStaysInsideTheBuffers := by
  unfold Obligations.EngineStaysInsideTheBuffers
  intro s f hs h
  match ht : s.turns with
  | [] => rw [step_nil ht] at h; exact engineStep_fault hs h
  | .engine :: ts => rw [step_engine ht] at h; exact engineStep_fault (s := { s with turns := ts }) (hs.withTurns ts) h
  | .host a :: ts => rw [step_host ht] at h; exact absurd h (hostStep_not_fault a _ f)

end Sys2Proof.Machine
end

section
/-! PROOFS. The buffers at the host's port: what an access is as a step, the refusals, and the bytes that a buffer access stores
or returns. -/

namespace Sys2Proof.Machine

/-! ### Places and refusals -/

/-- The offsets below 0x2000 are the buffers' (R29). -/
theorem isBuffer_portPlace (o : PortOffset) : (portPlace o).isBuffer = decide (o.toNat < 0x2000) := by
  by_cases h : o.toNat < 0x2000
  · rw [decide_eq_true h, portPlace]
    (repeat' split) <;> rfl
  · rw [decide_eq_false h, portPlace, if_neg (by omega), if_neg h]
    (repeat' split) <;> rfl

theorem portPlace_inp {o : PortOffset} (h : o.toNat < 0x1000) : portPlace o = .inp o.toNat := if_pos h

theorem portPlace_out {o : PortOffset} (h : 0x1000 ≤ o.toNat) (h' : o.toNat < 0x2000) :
    portPlace o = .out (o.toNat - 0x1000) := by
  rw [portPlace, if_neg (Nat.not_lt.mpr h), if_pos h']

section
variable {s : State} {o : PortOffset} {w : PortWidth} {ts : List Turn}

theorem portRefusal_misaligned (h : o.toNat % w.size ≠ 0) : s.portRefusal o w = some .misalignedAccess := if_pos h

theorem portRefusal_busy (h : o.toNat % w.size = 0) (hr : o.toNat < 0x2000) (hb : s.busy = true) :
    s.portRefusal o w = some .bufferWhileBusy := by
  simp [State.portRefusal, h, isBuffer_portPlace, hr, hb]

theorem portRefusal_narrow (h : o.toNat % w.size = 0) (hr : 0x2000 ≤ o.toNat) (hw : w ≠ .word) :
    s.portRefusal o w = some .registerWidth := by
  simp [State.portRefusal, h, isBuffer_portPlace, Nat.not_lt.mpr hr, hw]

/-! ### Accesses as steps -/

/-- A read and a write are refused alike: by the offset and the width. -/
theorem hostStep_refused {a : HostAction} {r : Refusal}
    (ha : a = .read o w ∨ ∃ d : PortData, d.width = w ∧ a = .write o d) (h : s.portRefusal o w = some r) :
    hostStep a s = .refused r := by
  rcases ha with rfl | ⟨d, rfl, rfl⟩
  · rw [hostStep, hostRead, h]
  · rw [hostStep, hostWrite, h]

theorem step_bufferWrite {d : PortData} (ht : s.turns = .host (.write o d) :: ts) (hb : s.busy = false)
    (h : o.toNat % d.width.size = 0) (hr : o.toNat < 0x2000) :
    step s = .next (portWrite (portPlace o) d { s with turns := ts }) := by
  have e : State.portRefusal { s with turns := ts } o d.width = none := portRefusal_buffer h hr hb
  rw [step_host ht, hostStep, hostWrite, e]

theorem step_bufferRead (ht : s.turns = .host (.read o w) :: ts) (hb : s.busy = false) (h : o.toNat % w.size = 0)
    (hr : o.toNat < 0x2000) :
    step s = .next { s with
      turns := ts, reads := (portRead (portPlace o) w { s with turns := ts }).1 :: s.reads,
      draws := (portRead (portPlace o) w { s with turns := ts }).2 } := by
  have e : State.portRefusal { s with turns := ts } o w = none := portRefusal_buffer h hr hb
  rw [step_host ht, hostStep, hostRead, e]

end

/-- Settles O55: each clause is one ground of a refusal, and reads and writes are refused alike. -/
theorem otherAccessesAreRefused : Obligations.OtherAccessesAreRefused := by
  unfold Obligations.OtherAccessesAreRefused
  intro s a o w ts ht ha
  rw [step_host ht]
  exact ⟨fun h => hostStep_refused ha (portRefusal_misaligned h),
    fun h hr hb => hostStep_refused ha (portRefusal_busy h hr hb),
    fun h hr hw => hostStep_refused ha (portRefusal_narrow h hr hw)⟩

/-! ### Buffer writes -/

/-- Byte `k` of an access's data stands `k` past the offset it was stored at (R61, R63). -/
theorem read_storedData_inside {m : Memory} {a k : Nat} {d : PortData} (h : k < d.width.size) :
    (m.writeBytes a d.bytes).read (a + k) = d.bytes[k]? := by
  rw [read_writeBytes, length_bytes, if_pos (by omega), Nat.add_sub_cancel_left]

theorem read_storedData_outside {m : Memory} {a c : Nat} {d : PortData} (h : c < a ∨ a + d.width.size ≤ c) :
    (m.writeBytes a d.bytes).read c = m.read c := by
  rw [read_writeBytes, length_bytes, if_neg (by omega)]

/-- Settles O56: the write is the step, and the buffer is left with the data's bytes written in a row. -/
theorem hostWriteStoresItsBytes : Obligations.HostWriteStoresItsBytes := by
  unfold Obligations.HostWriteStoresItsBytes
  intro s o d ts ht hb h
  refine ⟨fun hi => ⟨s.inp.writeBytes o.toNat d.bytes, ?_, fun k => read_storedData_inside,
      fun a => read_storedData_outside⟩,
    fun hl hu => ⟨s.out.writeBytes (o.toNat - 0x1000) d.bytes, ?_, fun k => read_storedData_inside,
      fun a => read_storedData_outside⟩⟩
  · rw [step_bufferWrite ht hb h (by omega), portPlace_inp hi]
    rfl
  · rw [step_bufferWrite ht hb h hu, portPlace_out hl hu]
    rfl

/-! ### Reads -/

/-- A read of a known byte takes no draw (R46). -/
theorem hostByte_known {m : Memory} {a draws : Nat} {b : Byte} (h : m.read a = some b) :
    hostByte m a draws = (b, draws) := by
  simp [hostByte, h]

/-- The bytes of a half word put together from two (R61). -/
theorem bytes_half (b0 b1 : Byte) : (PortData.half (b1 ++ b0)).bytes = [b0, b1] := by
  simp only [PortData.bytes, List.cons.injEq, and_true]
  constructor <;> apply BitVec.eq_of_toNat_eq <;> simp only [toNat_field, toNat_cat] <;> omega

/-- The bytes of a word put together from four (R61). -/
theorem bytes_word (b0 b1 b2 b3 : Byte) : (PortData.word (b3 ++ b2 ++ b1 ++ b0)).bytes = [b0, b1, b2, b3] := by
  simp only [PortData.bytes, List.cons.injEq, and_true]
  refine ⟨?_, ?_, ?_, ?_⟩ <;> apply BitVec.eq_of_toNat_eq <;> simp only [toNat_field, toNat_cat] <;> omega

/-- A read of known bytes takes no draw and returns data made of those bytes, the first lowest (R61, R63). -/
theorem hostBufferRead_known {m : Memory} {a : Nat} {w : PortWidth} (draws : Nat)
    (h : ∀ k, k < w.size → (m.read (a + k)).isSome = true) :
    ∃ d : PortData, hostBufferRead m a w draws = (d, draws) ∧ d.width = w ∧
      ∀ k, k < w.size → d.bytes[k]? = m.read (a + k) := by
  have known : ∀ k, k < w.size → ∃ b, m.read (a + k) = some b := fun k hk => Option.isSome_iff_exists.mp (h k hk)
  cases w with
  | byte =>
    obtain ⟨b0, h0 : m.read a = some b0⟩ := known 0 (by decide)
    refine ⟨.byte b0, by simp only [hostBufferRead, hostByte_known h0], rfl, fun k hk => ?_⟩
    match k, hk with
    | 0, _ => exact h0.symm
  | half =>
    obtain ⟨b0, h0 : m.read a = some b0⟩ := known 0 (by decide)
    obtain ⟨b1, h1⟩ := known 1 (by decide)
    refine ⟨.half (b1 ++ b0), by simp only [hostBufferRead, hostByte_known h0, hostByte_known h1], rfl, fun k hk => ?_⟩
    rw [bytes_half]
    match k, hk with
    | 0, _ => exact h0.symm
    | 1, _ => exact h1.symm
  | word =>
    obtain ⟨b0, h0 : m.read a = some b0⟩ := known 0 (by decide)
    obtain ⟨b1, h1⟩ := known 1 (by decide)
    obtain ⟨b2, h2⟩ := known 2 (by decide)
    obtain ⟨b3, h3⟩ := known 3 (by decide)
    refine ⟨.word (b3 ++ b2 ++ b1 ++ b0), ?_, rfl, fun k hk => ?_⟩
    · simp only [hostBufferRead, hostByte_known h0, hostByte_known h1, hostByte_known h2, hostByte_known h3]
    · rw [bytes_word]
      match k, hk with
      | 0, _ => exact h0.symm
      | 1, _ => exact h1.symm
      | 2, _ => exact h2.symm
      | 3, _ => exact h3.symm

theorem width_hostBufferRead (m : Memory) (a : Nat) (w : PortWidth) (draws : Nat) :
    (hostBufferRead m a w draws).1.width = w := by
  cases w <;> rfl

/-- Settles O57: the read is the step, and it takes no draw. -/
theorem hostReadReturnsTheBytes : Obligations.HostReadReturnsTheBytes := by
  unfold Obligations.HostReadReturnsTheBytes
  intro s o w ts ht hb h
  refine ⟨fun hi hk => ?_, fun hl hu hk => ?_⟩
  · obtain ⟨d, e, hw, hd⟩ := hostBufferRead_known s.draws hk
    refine ⟨d, hw, ?_, hd⟩
    rw [step_bufferRead ht hb h (by omega), portPlace_inp hi]
    simp only [portRead, e]
  · obtain ⟨d, e, hw, hd⟩ := hostBufferRead_known s.draws hk
    refine ⟨d, hw, ?_, hd⟩
    rw [step_bufferRead ht hb h hu, portPlace_out hl hu]
    simp only [portRead, e]

/-- An admitted read returns data of the access's width; a register is read whole (R62). -/
theorem width_portRead {s : State} {o : PortOffset} {w : PortWidth} (h : s.portRefusal o w = none) :
    (portRead (portPlace o) w s).1.width = w := by
  obtain ⟨-, -, hreg⟩ := portRefusal_none h
  cases e : portPlace o with
  | inp a => exact width_hostBufferRead ..
  | out a => exact width_hostBufferRead ..
  | ctrl => exact (hreg (by rw [e]; rfl)).symm
  | srcLen => exact (hreg (by rw [e]; rfl)).symm
  | status => exact (hreg (by rw [e]; rfl)).symm
  | dstCount => exact (hreg (by rw [e]; rfl)).symm
  | srcCount => exact (hreg (by rw [e]; rfl)).symm
  | reserved => exact (hreg (by rw [e]; rfl)).symm

/-- Settles O58: an accepted read is one of the host's effects, and the data it records has the access's width. -/
theorem readsHaveNoSideEffect : Obligations.ReadsHaveNoSideEffect := by
  unfold Obligations.ReadsHaveNoSideEffect
  intro s t o w ts ht h
  rw [step_host ht] at h
  cases hostStep_effect h with
  | read _ _ hp => exact ⟨_, rfl, width_portRead hp⟩

end Sys2Proof.Machine
end

section
/-! PROOFS. Decoder and encoder agree in both directions: an encoded token decodes to itself, and what decodes to a
token is its encoding. -/

namespace Sys2Proof

/-! ### Decoding an encoding -/

/-- Settles O4: the encoder's bytes decode to the token, with the literal bytes among what follows them. -/
theorem decodeOfEncodeGivesTheToken : Obligations.DecodeOfEncodeGivesTheToken := by
  unfold Obligations.DecodeOfEncodeGivesTheToken
  intro i data rest h
  rw [encodeToken, List.append_assoc, decode_encode_append h]

/-- Settles O1: each word is the encoding of its token, with the bytes after it. -/
theorem sampleWordsDecode : Obligations.SampleWordsDecode := by
  unfold Obligations.SampleWordsDecode
  exact ⟨decode_encode_append (i := .record 2 3) rfl [0xAA], decode_encode_append (i := .lit 63) rfl [0x01],
    decode_encode_append (i := .fill 3 0x5A) rfl [], decode_encode_append (i := .endPage) rfl [0xFF],
    decode_encode_append (i := .br1 1 3 3) rfl [0x43], decode_encode_append (i := .br2 5 1) rfl [],
    decode_encode_append (i := .br3 0 41 2048) rfl []⟩

/-! ### What shape 0 answers -/

theorem decodeShape0_lit {b : Byte} (h : b.extractLsb' 2 6 ≠ 0) (bs : List Byte) :
    decodeShape0 b bs = .token (.lit (b.extractLsb' 2 6)) bs := if_pos h

theorem decodeShape0_fill {m : Byte} (h : m ≠ 0) (v : Byte) (bs : List Byte) :
    decodeShape0 0 (m :: v :: bs) = .token (.fill m v) bs := if_neg h

theorem decodeShape0_noValue {m : Byte} (h : m ≠ 0) : decodeShape0 0 [m] = .needs 3 := if_neg h

/-! ### The fields of a byte, put together again -/

/-- The four values of a control byte's tag (R93). -/
theorem tag_cases (x : BitVec 2) : x = 0#2 ∨ x = 1#2 ∨ x = 2#2 ∨ x = 3#2 := by
  revert x; decide

/-- A byte is its tag and its other bits, put together again (R97). -/
theorem byte_of_two (b : Byte) : b.extractLsb' 2 6 ++ b.extractLsb' 0 2 = b :=
  highField_cat_lowField (a := 2) (b := 6) b

/-- A byte whose tag and whose other bits are 0 is 0 (R98, R99). -/
theorem eq_zero_of_fields {b : Byte} (ht : b.extractLsb' 0 2 = 0#2) (hn : b.extractLsb' 2 6 = 0) : b = 0 := by
  rw [← byte_of_two b, ht, hn]
  rfl

/-- A byte is its three fields of shape 2, put together again (R102). -/
theorem byte_of_shape2 (b : Byte) : b.extractLsb' 4 4 ++ b.extractLsb' 2 2 ++ b.extractLsb' 0 2 = b := by
  rw [BitVec.extractLsb'_append_extractLsb'_eq_extractLsb' (show 4 = 2 + 2 from rfl)]
  exact byte_of_two b

/-- A byte is its three fields of shape 3, put together again (R103). -/
theorem byte_of_shape3 (b : Byte) : b.extractLsb' 6 2 ++ b.extractLsb' 2 4 ++ b.extractLsb' 0 2 = b := by
  rw [BitVec.extractLsb'_append_extractLsb'_eq_extractLsb' (show 6 = 2 + 4 from rfl)]
  exact byte_of_two b

/-- A byte is its four fields of shape 1, put together again (R101). -/
theorem byte_of_shape1 (b : Byte) :
    b.extractLsb' 7 1 ++ b.extractLsb' 4 3 ++ b.extractLsb' 2 2 ++ b.extractLsb' 0 2 = b := by
  rw [BitVec.extractLsb'_append_extractLsb'_eq_extractLsb' (show 7 = 4 + 3 from rfl),
    BitVec.extractLsb'_append_extractLsb'_eq_extractLsb' (show 4 = 2 + 2 from rfl)]
  exact byte_of_two b

/-- A field that was extended is the low field of the result. -/
theorem lowField_setWidth {w n : Nat} (x : BitVec n) (h : n ≤ w) : (x.setWidth w).extractLsb' 0 n = x := by
  rw [BitVec.extractLsb'_setWidth_of_le (by omega), BitVec.extractLsb'_eq_self]

/-- The bias is taken off again, and the field is left (R101, R102, R104). -/
theorem lowField_biased {n : Nat} (x : BitVec n) (h : n ≤ 6) : (x.setWidth 6 + 3 - 3).extractLsb' 0 n = x := by
  rw [BitVec.add_sub_cancel, lowField_setWidth x h]

/-- The two parts of an offset of shape 1 (R101). -/
theorem fields_of_offset9 (x : Byte) (y : BitVec 1) :
    ((x ++ y).setWidth 12).extractLsb' 0 1 = y ∧ ((x ++ y).setWidth 12).extractLsb' 1 8 = x := by
  constructor
  · rw [BitVec.extractLsb'_setWidth_of_le (by decide), BitVec.extractLsb'_append_eq_right]
  · rw [BitVec.extractLsb'_setWidth_of_le (by decide), BitVec.extractLsb'_append_eq_left]

/-! ### Encoding what was decoded -/

theorem encode_of_decodeV1 {bs rest : List Byte} {i : Instr} (h : decodeV1 bs = .token i rest) :
    bs = encode i ++ rest := by
  match bs, h with
  | b0 :: b1 :: b2 :: b3 :: bs, h =>
    obtain ⟨rfl, rfl⟩ := Decoded.token.inj h
    simp only [encode, BitVec.extractLsb'_append_eq_right, BitVec.extractLsb'_append_eq_left, List.cons_append,
      List.nil_append]

theorem encode_of_decodeShape0 {b : Byte} {bs rest : List Byte} {i : Instr} (ht : b.extractLsb' 0 2 = 0#2)
    (h : decodeShape0 b bs = .token i rest) : b :: bs = encode i ++ rest := by
  by_cases hn : b.extractLsb' 2 6 = 0
  · obtain rfl := eq_zero_of_fields ht hn
    match bs, h with
    | b1 :: bs, h =>
      by_cases hm : b1 = 0
      · subst hm
        obtain ⟨rfl, rfl⟩ := Decoded.token.inj h
        rfl
      · match bs, h with
        | [], h => cases (decodeShape0_noValue hm).symm.trans h
        | b2 :: bs, h =>
          rw [decodeShape0_fill hm] at h
          obtain ⟨rfl, rfl⟩ := Decoded.token.inj h
          rfl
  · rw [decodeShape0_lit hn] at h
    obtain ⟨rfl, rfl⟩ := Decoded.token.inj h
    rw [encode, ← ht, byte_of_two, List.singleton_append]

theorem encode_of_decodeShape1 {b : Byte} {bs rest : List Byte} {i : Instr} (ht : b.extractLsb' 0 2 = 1#2)
    (h : decodeShape1 b bs = .token i rest) : b :: bs = encode i ++ rest := by
  match bs, h with
  | b1 :: bs, h =>
    obtain ⟨rfl, rfl⟩ := Decoded.token.inj h
    obtain ⟨h0, h1⟩ := fields_of_offset9 b1 (b.extractLsb' 7 1)
    rw [encode, h0, h1, lowField_biased _ (by decide), lowField_setWidth _ (by decide), ← ht, byte_of_shape1]
    rfl

theorem encode_of_decodeShape2 {b : Byte} {bs rest : List Byte} {i : Instr} (ht : b.extractLsb' 0 2 = 2#2)
    (h : decodeShape2 b bs = .token i rest) : b :: bs = encode i ++ rest := by
  match bs, h with
  | b1 :: bs, h =>
    obtain ⟨rfl, rfl⟩ := Decoded.token.inj h
    rw [encode, BitVec.extractLsb'_append_eq_right, BitVec.extractLsb'_append_eq_left, lowField_biased _ (by decide),
      ← ht, byte_of_shape2]
    rfl

theorem encode_of_decodeShape3 {b : Byte} {bs rest : List Byte} {i : Instr} (ht : b.extractLsb' 0 2 = 3#2)
    (h : decodeShape3 b bs = .token i rest) : b :: bs = encode i ++ rest := by
  match bs, h with
  | b1 :: b2 :: bs, h =>
    obtain ⟨rfl, rfl⟩ := Decoded.token.inj h
    have h1 := highField_cat_lowField (a := 4) (b := 4) b1
    simp only [encode, BitVec.extractLsb'_append_eq_right, BitVec.extractLsb'_append_eq_left, ← ht, byte_of_shape3, h1,
      List.cons_append, List.nil_append]

/-- Once for both grammars: the bytes that decode to a token are its encoding and what follows (R110). -/
theorem encode_of_decode {g : Grammar} {bs rest : List Byte} {i : Instr} (h : decode g bs = .token i rest) :
    bs = encode i ++ rest := by
  cases g with
  | v1 => exact encode_of_decodeV1 h
  | v2 =>
    match bs, h with
    | b :: bs, h =>
      rw [decode] at h
      rcases tag_cases (b.extractLsb' 0 2) with ht | ht | ht | ht
      · rw [decodeV2_of_tag0 ht] at h; exact encode_of_decodeShape0 ht h
      · rw [decodeV2_of_tag1 ht] at h; exact encode_of_decodeShape1 ht h
      · rw [decodeV2_of_tag2 ht] at h; exact encode_of_decodeShape2 ht h
      · rw [decodeV2_of_tag3 ht] at h; exact encode_of_decodeShape3 ht h

/-- Settles O5: what the decoder answers is well-formed and of its grammar, and its encoding is what was read. -/
theorem encodeOfDecodeGivesTheBytes : Obligations.EncodeOfDecodeGivesTheBytes := by
  unfold Obligations.EncodeOfDecodeGivesTheBytes
  intro g bs rest i h
  obtain ⟨hw, hg, -⟩ := decode_token h
  exact ⟨hw, hg, encode_of_decode h⟩

end Sys2Proof
end

section
/-! PROOFS. No byte sequence is illegal: shape by shape, it is a token or the beginning of one. -/

namespace Sys2Proof

/-- The bytes decode to a token, or are the beginning of one that ends where the decoder says (R106). -/
def TokenOrBeginning (g : Grammar) (bs : List Byte) : Prop :=
  (∃ i rest, decode g bs = .token i rest) ∨
    ∃ k, decode g bs = .needs k ∧ ∃ more i, bs.length + more.length = k ∧ decode g (bs ++ more) = .token i []

theorem tokenOrBeginning_v1 (bs : List Byte) : TokenOrBeginning .v1 bs :=
  match bs with
  | [] => .inr ⟨4, rfl, [0, 0, 0, 0], _, rfl, rfl⟩
  | [_] => .inr ⟨4, rfl, [0, 0, 0], _, rfl, rfl⟩
  | [_, _] => .inr ⟨4, rfl, [0, 0], _, rfl, rfl⟩
  | [_, _, _] => .inr ⟨4, rfl, [0], _, rfl, rfl⟩
  | _ :: _ :: _ :: _ :: rest => .inl ⟨_, rest, rfl⟩

theorem tokenOrBeginning_shape0 {b : Byte} (ht : b.extractLsb' 0 2 = 0#2) (bs : List Byte) :
    TokenOrBeginning .v2 (b :: bs) := by
  have hd := decodeV2_of_tag0 ht
  by_cases hn : b.extractLsb' 2 6 = 0
  · obtain rfl := eq_zero_of_fields ht hn
    match bs with
    | [] => exact .inr ⟨2, rfl, [0], .endPage, rfl, rfl⟩
    | m :: bs =>
      by_cases hm : m = 0
      · subst hm
        exact .inl ⟨.endPage, bs, rfl⟩
      · match bs with
        | [] =>
          exact .inr ⟨3, (hd _).trans (decodeShape0_noValue hm), [0], _, rfl, (hd _).trans (decodeShape0_fill hm 0 [])⟩
        | v :: bs => exact .inl ⟨_, bs, (hd _).trans (decodeShape0_fill hm v bs)⟩
  · exact .inl ⟨_, bs, (hd bs).trans (decodeShape0_lit hn bs)⟩

theorem tokenOrBeginning_shape1 {b : Byte} (ht : b.extractLsb' 0 2 = 1#2) (bs : List Byte) :
    TokenOrBeginning .v2 (b :: bs) :=
  match bs with
  | [] => .inr ⟨2, decodeV2_of_tag1 ht [], [0], _, rfl, decodeV2_of_tag1 ht [0]⟩
  | _ :: rest => .inl ⟨_, rest, decodeV2_of_tag1 ht _⟩

theorem tokenOrBeginning_shape2 {b : Byte} (ht : b.extractLsb' 0 2 = 2#2) (bs : List Byte) :
    TokenOrBeginning .v2 (b :: bs) :=
  match bs with
  | [] => .inr ⟨2, decodeV2_of_tag2 ht [], [0], _, rfl, decodeV2_of_tag2 ht [0]⟩
  | _ :: rest => .inl ⟨_, rest, decodeV2_of_tag2 ht _⟩

theorem tokenOrBeginning_shape3 {b : Byte} (ht : b.extractLsb' 0 2 = 3#2) (bs : List Byte) :
    TokenOrBeginning .v2 (b :: bs) :=
  match bs with
  | [] => .inr ⟨3, decodeV2_of_tag3 ht [], [0, 0], _, rfl, decodeV2_of_tag3 ht [0, 0]⟩
  | [b1] => .inr ⟨3, decodeV2_of_tag3 ht [b1], [0], _, rfl, decodeV2_of_tag3 ht [b1, 0]⟩
  | _ :: _ :: rest => .inl ⟨_, rest, decodeV2_of_tag3 ht _⟩

/-- The empty sequence is the beginning of a literal run (R97); a first byte is of one of the four shapes (R105). -/
theorem tokenOrBeginning_v2 (bs : List Byte) : TokenOrBeginning .v2 bs := by
  match bs with
  | [] => exact .inr ⟨1, rfl, [4], .lit 1, rfl, rfl⟩
  | b :: bs =>
    rcases tag_cases (b.extractLsb' 0 2) with ht | ht | ht | ht
    · exact tokenOrBeginning_shape0 ht bs
    · exact tokenOrBeginning_shape1 ht bs
    · exact tokenOrBeginning_shape2 ht bs
    · exact tokenOrBeginning_shape3 ht bs

/-- Settles O6: in either grammar; the decoder needs more bytes than it has, and never more than four. -/
theorem everyByteSequenceIsATokenOrItsBeginning : Obligations.EveryByteSequenceIsATokenOrItsBeginning := by
  unfold Obligations.EveryByteSequenceIsATokenOrItsBeginning
  intro g bs
  have h : TokenOrBeginning g bs := by
    cases g with
    | v1 => exact tokenOrBeginning_v1 bs
    | v2 => exact tokenOrBeginning_v2 bs
  rcases h with h | ⟨k, hk, more, i, hl, hi⟩
  · exact .inl h
  · obtain ⟨hlt, h4⟩ := decode_needs hk
    exact .inr ⟨by omega, k, hk, hlt, more, i, hl, hi⟩

end Sys2Proof
end

section
/-! PROOFS. What the decoder assembles and what the encoder writes, in arithmetic on the bytes. -/

namespace Sys2Proof

/-- The tag is the remainder of the control byte by 4 (R93). -/
theorem tag_of_mod {b : Byte} {t : Nat} (h : b.toNat % 4 = t) : b.extractLsb' 0 2 = BitVec.ofNat 2 t := by
  apply BitVec.eq_of_toNat_eq
  rw [toNat_field, BitVec.toNat_ofNat]
  omega

/-- A biased length, in arithmetic: a field of at most 5 bits leaves room for the bias (R101, R102, R104). -/
theorem toNat_biased {n : Nat} (x : BitVec n) (h : n ≤ 5) : (x.setWidth 6 + 3).toNat = x.toNat + 3 := by
  have hx : x.toNat < 2 ^ 5 := Nat.lt_of_lt_of_le x.isLt (Nat.pow_le_pow_right (by decide) h)
  rw [BitVec.toNat_add, BitVec.toNat_setWidth, show (3 : BitVec 6).toNat = 3 from rfl]
  omega

theorem toNat_unbiased {len : BitVec 6} (h : 3 ≤ len.toNat) : (len - 3).toNat = len.toNat - 3 :=
  BitVec.toNat_sub_of_le h

/-- Settles O2: each clause is one row of the decode map, its fields read as quotients and remainders. -/
theorem fieldsAreAssembledAsTheFormatsSay : Obligations.FieldsAreAssembledAsTheFormatsSay := by
  unfold Obligations.FieldsAreAssembledAsTheFormatsSay
  intro b0 b1 b2 b3 rest
  refine ⟨⟨_, _, rfl, ?_, ?_⟩, fun h h0 => ?_, fun h0 h1 => ?_, fun h0 h1 => ?_,
    fun h => ⟨_, _, _, decodeV2_of_tag1 (tag_of_mod h) (b1 :: rest), ?_, ?_, ?_⟩,
    fun h => ⟨_, _, decodeV2_of_tag2 (tag_of_mod h) (b1 :: rest), ?_, ?_⟩,
    fun h => ⟨_, _, _, decodeV2_of_tag3 (tag_of_mod h) (b1 :: b2 :: rest), ?_, ?_, ?_⟩⟩
  · rw [toNat_cat]; omega
  · rw [toNat_cat]; omega
  · have hn : (b0.extractLsb' 2 6).toNat = b0.toNat / 4 := by rw [toNat_field]; omega
    have h2 : b0.extractLsb' 2 6 ≠ 0 := BitVec.toNat_ne.mpr (hn ▸ show b0.toNat / 4 ≠ 0 by omega)
    exact ⟨_, (decodeV2_of_tag0 (tag_of_mod h) rest).trans (decodeShape0_lit h2 rest), hn⟩
  · obtain rfl : b0 = 0 := BitVec.eq_of_toNat_eq h0
    exact decodeShape0_fill (BitVec.toNat_ne.mpr h1) b2 rest
  · obtain rfl : b0 = 0 := BitVec.eq_of_toNat_eq h0
    obtain rfl : b1 = 0 := BitVec.eq_of_toNat_eq h1
    rfl
  · rw [BitVec.toNat_setWidth, toNat_field]; omega
  · rw [toNat_biased _ (by decide), toNat_field]; omega
  · rw [BitVec.toNat_setWidth, toNat_cat, toNat_field]; omega
  · rw [toNat_biased _ (by decide), toNat_field]; omega
  · rw [toNat_cat, toNat_field]; omega
  · rw [toNat_field]; omega
  · rw [toNat_cat, toNat_field, toNat_field]; omega
  · rw [toNat_cat, toNat_field]; omega

/-- Settles O3: each byte is the sum of its fields, and in the operand ranges no field loses a bit. -/
theorem encodingFollowsTheNotation : Obligations.EncodingFollowsTheNotation := by
  unfold Obligations.EncodingFollowsTheNotation
  refine ⟨fun rep span => ?_, fun n => ?_, fun m v => rfl, rfl, fun nr len off h => ?_, fun len off h => ?_,
    fun nr len off => ?_⟩
  · simp only [encode, List.map_cons, List.map_nil, toNat_field, List.cons.injEq, and_true]
    omega
  · simp only [encode, List.map_cons, List.map_nil, toNat_cat, BitVec.toNat_ofNat, List.cons.injEq, and_true]
    omega
  · simp only [Instr.wf, Bool.and_eq_true, decide_eq_true_eq] at h
    obtain ⟨⟨⟨hn, hl⟩, hl'⟩, ho⟩ := h
    simp only [encode, List.map_cons, List.map_nil, toNat_cat, toNat_field, toNat_unbiased hl, BitVec.toNat_ofNat,
      List.cons.injEq, and_true]
    omega
  · simp only [Instr.wf, Bool.and_eq_true, decide_eq_true_eq] at h
    simp only [encode, List.map_cons, List.map_nil, toNat_cat, toNat_field, toNat_unbiased h.1, BitVec.toNat_ofNat,
      List.cons.injEq, and_true]
    omega
  · simp only [encode, List.map_cons, List.map_nil, toNat_cat, toNat_field, BitVec.toNat_ofNat, List.cons.injEq,
      and_true]
    omega

end Sys2Proof
end

section
/-! PROOFS. A token's effect on the source: its length, or nothing. -/

namespace Sys2Proof.Machine

/-- The lengths of the seven tokens, written out (R95). -/
theorem length_of_each (i : Instr) :
    (∀ rep span, i = .record rep span → i.length = 4 + span.toNat) ∧ (∀ n, i = .lit n → i.length = 1 + n.toNat) ∧
    (∀ m v, i = .fill m v → i.length = 3) ∧ (i = .endPage → i.length = 2) ∧
    (∀ nr len off, i = .br1 nr len off → i.length = 2 + nr.toNat) ∧ (∀ len off, i = .br2 len off → i.length = 2) ∧
    (∀ nr len off, i = .br3 nr len off → i.length = 3 + nr.toNat) :=
  ⟨fun _ _ h => h ▸ rfl, fun _ h => h ▸ rfl, fun _ _ h => h ▸ rfl, fun h => h ▸ rfl, fun _ _ _ h => h ▸ rfl,
    fun _ _ h => h ▸ rfl, fun _ _ _ h => h ▸ rfl⟩

theorem err_iff {s : State} : s.err = true ↔ s.runState = .doneErr := by
  unfold State.err
  cases s.runState <;> simp

/-- A token that raised no fault has advanced the source by its length (R96). -/
theorem TokenEffect.source_advances {i : Instr} {s t : State} (h : TokenEffect i s t) (hs : s.cursorsAgree)
    (he : t.runState ≠ .doneErr) :
    t.srcPos.toNat = s.srcPos.toNat + i.length ∧ t.srcBudget.toNat + i.length = s.srcBudget.toNat := by
  cases h with
  | failed k hk => exact absurd rfl he
  | overrun k m hk hm hv hp => exact absurd rfl he
  | committed m hj hk hm hne =>
    obtain ⟨-, hp, hb, -⟩ := cursorsAgree_afterToken (m := m) hs hj hk
    omega
  | finished hj hi =>
    subst hi
    obtain ⟨-, hp, hb, -⟩ := cursorsAgree_afterToken (m := s.out) hs hj (Nat.zero_le _)
    exact ⟨hp, by rw [finishOk_srcBudget, hb]; exact Nat.sub_add_cancel hj⟩

/-- A fault leaves the source as it was, and the destination too, but for the whole repetitions that a V1 overrun under
`per_repetition` wrote (R96, R222). -/
theorem TokenEffect.frame_of_fault {i : Instr} {s t : State} (h : TokenEffect i s t) (hr : s.runState = .run)
    (he : t.runState = .doneErr) :
    t.srcPos = s.srcPos ∧ t.srcBudget = s.srcBudget ∧
      (s.v1DstCheck = .wholeRecord ∨ i.grammar = .v2 ∨ t.errCode ≠ 3 →
        t.dstPos = s.dstPos ∧ t.dstBudget = s.dstBudget ∧ t.out = s.out) := by
  cases h with
  | failed k hk => exact ⟨rfl, rfl, fun _ => ⟨rfl, rfl, rfl⟩⟩
  | overrun k m hk hm hv hp =>
    refine ⟨by simp, by simp, fun hx => ?_⟩
    rcases hx with hx | hx | hx
    · exact absurd (hp.symm.trans hx) (by decide)
    · exact absurd (hv.symm.trans hx) (by decide)
    · exact absurd rfl hx
  | committed m hj hk hm hne => exact absurd (hr.symm.trans he) (by decide)
  | finished hj hi => exact absurd he (by simp)

/-- Settles O24: of what a token can leave, only a commit and the end of the run set no `ERR`, and both consume
its length. -/
theorem sourceAdvancesByTheTokenLength : Obligations.SourceAdvancesByTheTokenLength := by
  unfold Obligations.SourceAdvancesByTheTokenLength
  intro i s t hr hs h
  have e := exec_effect hs h
  refine ⟨fun ht => ?_, fun ht => e.frame_of_fault hr (err_iff.mp ht)⟩
  have ht : t.runState ≠ .doneErr := fun hd => by simp [err_iff.mpr hd] at ht
  obtain ⟨hp, hb⟩ := e.source_advances hs ht
  exact ⟨i.length, hp, hb, length_of_each i⟩

end Sys2Proof.Machine
end

section
/-! PROOFS. An overlapping back-reference copy: each byte is the byte `off` before it (R138), so the copy is periodic. -/

namespace Sys2Proof.Machine

/-- A valid back-reference copy inside the page completes; byte `j` of it is the byte `off` before it in the `OUT` it leaves,
and every byte outside it is as before (R134, R138). -/
theorem copyBack_completes {s : State} {off k : Nat} (ho : 1 ≤ off) (hw : off ≤ s.dstPos.toNat)
    (hb : s.dstPos.toNat + k ≤ pageSize) (hn : s.out.knownBelow s.dstPos.toNat) :
    ∃ t, copyBack off k s = .ok t ∧ s.keepsOutside k t.out ∧
      ∀ j, j < k → t.out.read (s.dstPos.toNat + j) = t.out.read (s.dstPos.toNat - off + j) := by
  obtain ⟨m, hrun, hback⟩ := writeRun_back k 0 s.out ho hw (fun a _ ha => hn a ha) hb
  cases ht : copyBack off k s with
  | error f => exact absurd ht (copyBack_not_error hw (fun h => absurd h (by omega)) hb hn f)
  | ok t =>
    obtain ⟨m', hrun', rfl⟩ := writeDest_eq ht
    obtain rfl : m = m' := Except.ok.inj (hrun.symm.trans hrun')
    obtain ⟨-, -, -, hout⟩ := writeRun_ok hrun
    exact ⟨_, rfl, hout, fun j hj => hback j (Nat.zero_le j) (by omega)⟩

/-- Where each of `k` bytes from `w` on is the byte `off` before it, they repeat the `off` bytes before `w` as a pattern of
period `off`. -/
theorem read_periodic {m : Memory} {w off k : Nat} (ho : 1 ≤ off) (hw : off ≤ w)
    (h : ∀ j, j < k → m.read (w + j) = m.read (w - off + j)) (j : Nat) (hj : j < k) :
    m.read (w + j) = m.read (w - off + j % off) := by
  induction j using Nat.strongRecOn with
  | ind j ih =>
    rcases Nat.lt_or_ge j off with hlt | hge
    · rw [h j hj, Nat.mod_eq_of_lt hlt]
    · calc m.read (w + j) = m.read (w - off + j) := h j hj
        _ = m.read (w + (j - off)) := by rw [show w - off + j = w + (j - off) by omega]
        _ = m.read (w - off + (j - off) % off) := ih (j - off) (by omega) (by omega)
        _ = m.read (w - off + j % off) := by rw [← Nat.mod_eq_sub_mod hge]

/-- Settles O14: the bytes of the copy repeat those of `OUT` before the cursor, which the copy leaves as they were. -/
theorem overlappingCopyRepeatsThePattern : Obligations.OverlappingCopyRepeatsThePattern := by
  unfold Obligations.OverlappingCopyRepeatsThePattern
  intro off k s ho hw hb hn
  obtain ⟨t, ht, hkeep, hback⟩ := copyBack_completes ho hw hb hn
  refine ⟨t, ht, fun j hj => ?_⟩
  have hmod : j % off < off := Nat.mod_lt j ho
  rw [read_periodic ho hw hback j hj, hkeep _ (.inl (by omega))]

end Sys2Proof.Machine
end

section
/-! PROOFS. The V1 record: its write loop, what it writes when it fits, and its faults. -/

namespace Sys2Proof.Machine

/-! ### The write loop -/

/-- Settles O15: by induction on the repetitions. The first `span` bytes of the loop are one repetition; the rest is the loop
of the other repetitions, moved up by one span. -/
theorem replayIsTheNestedLoops : Obligations.ReplayIsTheNestedLoops := by
  unfold Obligations.ReplayIsTheNestedLoops
  intro inp m a span base reps
  induction reps generalizing base m with
  | zero => rw [Nat.zero_mul, writeRun, replayLoop]
  | succ reps ih =>
    have first : writeRun (fun i _ => readIn inp (a + i % span)) base 0 span m =
        writeRun (fun i _ => readIn inp (a + i)) base 0 span m :=
      writeRun_shift m rfl fun j _ hj => by simp only [Nat.zero_add, Nat.mod_eq_of_lt hj]
    rw [Nat.succ_mul, Nat.add_comm, writeRun_split, first, replayLoop]
    cases writeRun (fun i _ => readIn inp (a + i)) base 0 span m with
    | error f => rfl
    | ok m' =>
      calc writeRun (fun i _ => readIn inp (a + i % span)) base (0 + span) (reps * span) m'
        _ = writeRun (fun i _ => readIn inp (a + i % span)) (base + span) 0 (reps * span) m' :=
          writeRun_shift m' (by omega) fun j _ _ => by simp only [Nat.zero_add, Nat.add_mod_left]
        _ = replayLoop inp a span (base + span) reps m' := ih m' (base + span)

theorem readIn_getD {m : Memory} {a : Nat} (h : (m.read a).isSome = true) : readIn m a = .ok ((m.read a).getD 0) := by
  rw [readIn_ok h, Option.get_eq_getD]

@[simp] theorem consume_zero (s : State) : consume 0 s = s := by simp [consume]

/-- Byte `i` of repetition `r` is a byte of the copy (R150). -/
theorem repetition_lt {r reps i span : Nat} (hr : r < reps) (hi : i < span) : r * span + i < reps * span :=
  calc r * span + i < r * span + span := Nat.add_lt_add_left hi _
    _ = (r + 1) * span := (Nat.succ_mul r span).symm
    _ ≤ reps * span := Nat.mul_le_mul_right span hr

/-- Repetitions that fit, of a span whose bytes are known, are written, after `j` source bytes were consumed (R133, R150). -/
theorem replaySpan_completes {s : State} {a span reps j : Nat} (hs : s.cursorsAgree) (hj : j ≤ s.srcBudget.toNat)
    (hk : reps * span ≤ s.dstBudget.toNat) (hl : reps ≠ 0 → s.literalsKnown a span) :
    ∃ m, replaySpan a span reps (consume j s) = .ok (s.afterToken j (reps * span) m) ∧
      (∀ r i, r < reps → i < span → m.read (s.dstPos.toNat + r * span + i) = s.inp.read (a + i)) ∧
      s.keepsOutside (reps * span) m := by
  have known (i : Nat) (hi : i < reps * span) : (s.inp.read (a + i % span)).isSome = true :=
    have hpos : 0 < reps * span := Nat.zero_lt_of_lt hi
    hl (Nat.pos_of_mul_pos_right hpos).ne' _ (Nat.mod_lt i (Nat.pos_of_mul_pos_left hpos))
  obtain ⟨m, hc, hm, hout⟩ := writeDest_completes (f := fun i => (s.inp.read (a + i % span)).getD 0) hs hj hk
    fun i _ hi => readIn_getD (known i hi)
  refine ⟨m, hc, fun r i hr hi => ?_, hout⟩
  have hlt := repetition_lt hr hi
  have hmod : (r * span + i) % span = i := Nat.mul_add_mod_of_lt hi
  have hb := known _ hlt
  rw [hmod] at hb
  rw [Nat.add_assoc, hm _ hlt, hmod, Option.getD_of_ne_none (Option.isSome_iff_ne_none.mp hb)]

/-! ### The checks, under the two values of `P_V1_DST_CHECK` -/

/-- The first failure of a longer list of checks (R224). -/
theorem firstFailure_append (s : State) (cs ds : List Check) :
    firstFailure s (cs ++ ds) = (firstFailure s cs).or (firstFailure s ds) := by
  induction cs with
  | nil => rfl
  | cons c cs ih => rw [List.cons_append, firstFailure_cons, firstFailure_cons, ih, Option.or_assoc]

/-- The source checks of a record, which both values of the parameter make first (R150, R151). -/
def recordSourceChecks (span : Nat) : List Check := [.src 4 .sourceExhausted, .src (4 + span) .sourceOverrun]

theorem firstFailure_recordSourceChecks (s : State) (span : Nat) :
    firstFailure s (recordSourceChecks span) =
      if s.srcBudget.toNat < 4 then some .sourceExhausted
      else if s.srcBudget.toNat < 4 + span then some .sourceOverrun else none := by
  rw [recordSourceChecks, firstFailure_cons, firstFailure_cons, firstFailure_nil, failure_src, failure_src, Option.or_none]
  split <;> rfl

theorem recordSourceChecks_pass {s : State} {span : Nat} (h : 4 + span ≤ s.srcBudget.toNat) :
    firstFailure s (recordSourceChecks span) = none := by
  rw [firstFailure_recordSourceChecks, if_neg (by omega), if_neg (by omega)]

/-- The repetitions fit exactly if the destination budget holds as many whole spans (R152). -/
theorem repetitions_fit_iff (rep span room : Nat) : span = 0 ∨ rep ≤ room / span ↔ rep * span ≤ room := by
  rcases Nat.eq_zero_or_pos span with rfl | hpos
  · simp
  · rw [or_iff_right hpos.ne', Nat.le_div_iff_mul_le hpos]

section
variable {rep span : BitVec 16} {s : State}

/-- A record under `whole_record`: the destination is checked before anything is written (R152). -/
theorem exec_record_wholeRecord (hp : s.v1DstCheck = .wholeRecord) :
    exec (.record rep span) s =
      runToken (recordSourceChecks span.toNat ++ [.dst (rep.toNat * span.toNat)])
        (commitRecord rep.toNat span.toNat) s := by
  rw [exec, execRecord, hp]
  rfl

/-- A record under `per_repetition`: whether it fits is seen in the commit (R152). -/
theorem exec_record_perRepetition (hp : s.v1DstCheck = .perRepetition) :
    exec (.record rep span) s =
      runToken (recordSourceChecks span.toNat)
        (fun s =>
          if rep.toNat * span.toNat ≤ s.dstBudget.toNat then commitRecord rep.toNat span.toNat s
          else overrunRecord span.toNat s) s := by
  rw [exec, execRecord, hp]
  simp only [repetitions_fit_iff]
  rfl

theorem exec_record_source_fails {k : FaultKind} (h : firstFailure s (recordSourceChecks span.toNat) = some k) :
    exec (.record rep span) s = .next (raiseFault k s) := by
  cases hp : s.v1DstCheck with
  | wholeRecord =>
    rw [exec_record_wholeRecord hp]
    exact runToken_fails (by rw [firstFailure_append, h, Option.some_or])
  | perRepetition => rw [exec_record_perRepetition hp, runToken_fails h]

/-- A record that its budgets cover answers as its commit does, under both values of the parameter (R150, R152). -/
theorem exec_record_fits {t : State} (hj : 4 + span.toNat ≤ s.srcBudget.toNat)
    (hk : rep.toNat * span.toNat ≤ s.dstBudget.toNat) (hc : commitRecord rep.toNat span.toNat s = .ok t) :
    exec (.record rep span) s = .next t := by
  have hsrc := recordSourceChecks_pass hj
  cases hp : s.v1DstCheck with
  | wholeRecord =>
    rw [exec_record_wholeRecord hp]
    refine runToken_commits ?_ hc
    rw [firstFailure_append, hsrc, Option.none_or, firstFailure_cons, failure_dst, if_neg (Nat.not_lt.mpr hk)]
    rfl
  | perRepetition =>
    rw [exec_record_perRepetition hp]
    exact runToken_commits hsrc ((if_pos hk).trans hc)

end

/-- Settles O7: the commit is the replay of a span whose repetitions fit. -/
theorem recordReplicatesItsSpan : Obligations.RecordReplicatesItsSpan := by
  unfold Obligations.RecordReplicatesItsSpan
  intro rep span s hs hj hk hl
  obtain ⟨m, hc, hm, hout⟩ := replaySpan_completes hs hj hk hl
  exact ⟨m, exec_record_fits hj hk hc, hm, hout⟩

/-- Settles O16: the first check that fails is the source's, for the header or for the span, or else the destination's. -/
theorem recordFaults : Obligations.RecordFaults := by
  unfold Obligations.RecordFaults
  intro rep span s
  refine ⟨fun h => exec_record_source_fails (k := .sourceExhausted) ?_,
    fun h h' => exec_record_source_fails (k := .sourceOverrun) ?_, fun hj hk hp => ?_⟩
  · rw [firstFailure_recordSourceChecks, if_pos h]
  · rw [firstFailure_recordSourceChecks, if_neg (Nat.not_lt.mpr h), if_pos h']
  · rw [exec_record_wholeRecord hp]
    refine runToken_fails (k := .destinationOverrun) ?_
    rw [firstFailure_append, recordSourceChecks_pass hj, Option.none_or, firstFailure_cons, failure_dst, if_pos hk,
      Option.some_or]

/-- Settles O17: the whole repetitions that fit are replayed, then the overrun is raised; the source is not consumed. -/
theorem recordOverrunPerRepetition : Obligations.RecordOverrunPerRepetition := by
  unfold Obligations.RecordOverrunPerRepetition
  intro rep span s hp hs hj hk hl
  obtain ⟨m, hc, hm, hout⟩ := replaySpan_completes (j := 0) hs (Nat.zero_le _)
    (Nat.div_mul_le_self s.dstBudget.toNat span.toNat) fun _ => hl
  rw [consume_zero] at hc
  refine ⟨m, ?_, hm, hout⟩
  rw [exec_record_perRepetition hp]
  refine runToken_commits (recordSourceChecks_pass hj) ((if_neg (Nat.not_le.mpr hk)).trans ?_)
  rw [overrunRecord, hc]
  rfl

end Sys2Proof.Machine
end

section
/-! PROOFS. The ends of a run that the fetch finds: the clean end of a V1 run, and a stream that ends inside a token. -/

namespace Sys2Proof.Machine

/-! ### The clean end of a V1 run -/

/-- A V1 step that begins with `src_rem = 0` ends the run with success (R154, R205). -/
theorem step_cleanEnd {s : State} (hr : s.runState = .run) (ht : s.turns = []) (ha : s.algRun = .v1)
    (hb : s.srcBudget.toNat = 0) : step s = .next (finishOk s) := by
  rw [step_nil ht, engineStep_run hr, fetch_endOfSource.mpr hb]
  simp only [runFetched, ha]

/-- A V1 record keeps the run state or ends the run with a fault, from any state (R150, R204). -/
theorem exec_record_runState {rep span : BitVec 16} {s t : State} (h : exec (.record rep span) s = .next t) :
    t.runState = s.runState ∨ t.runState = .doneErr := by
  have commit (ht : commitRecord rep.toNat span.toNat s = .ok t) : t.runState = s.runState := by
    rw [(consume_movedTo _ s).trans (writeDest_movedTo ht)]
  cases hp : s.v1DstCheck with
  | wholeRecord =>
    rw [exec_record_wholeRecord hp] at h
    rcases runToken_next h with ⟨k, -, rfl⟩ | ⟨-, hc⟩
    · exact .inr rfl
    · exact .inl (commit hc)
  | perRepetition =>
    rw [exec_record_perRepetition hp] at h
    rcases runToken_next h with ⟨k, -, rfl⟩ | ⟨-, hc⟩
    · exact .inr rfl
    · split at hc
      · exact .inl (commit hc)
      · simp only [overrunRecord] at hc
        split at hc
        · cases hc
        · exact .inr (Except.ok.inj hc ▸ rfl)

/-- A V1 step ends the run with success only where the source ends: no record does (R154). -/
theorem source_ended_of_success {s t : State} (hr : s.runState = .run) (ha : s.algRun = .v1) (h : engineStep s = .next t)
    (hd : t.runState = .doneOk) : s.srcBudget.toNat = 0 := by
  rw [engineStep_run hr] at h
  cases hf : s.fetch with
  | endOfSource => exact fetch_endOfSource.mp hf
  | cutShort =>
    simp only [hf, runFetched, Host.Outcome.next.injEq] at h
    subst h
    cases hd
  | unwritten a => simp [hf, runFetched] at h
  | token i =>
    rw [hf] at h
    obtain ⟨-, hg, -⟩ := fetch_token hf
    cases i with
    | record rep span =>
      rcases exec_record_runState h with e | e
      · rw [e, latch_runState, hr] at hd; cases hd
      · rw [e] at hd; cases hd
    | _ => exact absurd (hg.trans ha) (by simp [Instr.grammar])

/-- Settles O27: success is the clean end, which the fetch finds exactly where no source byte is left. -/
theorem recordRunSucceedsExactlyAtTheEnd : Obligations.RecordRunSucceedsExactlyAtTheEnd := by
  unfold Obligations.RecordRunSucceedsExactlyAtTheEnd
  refine ⟨fun s hr ht ha => ⟨step_cleanEnd hr ht ha, fun t h hd => ?_⟩, fun s ht ha hl => ?_⟩
  · have hb := source_ended_of_success hr ha (step_nil ht ▸ h) hd
    refine ⟨hb, fun ⟨_, hpos, _⟩ => ?_⟩
    rw [step_cleanEnd hr ht ha hb] at h
    obtain rfl := Host.Outcome.next.inj h
    rw [hb, Nat.add_zero] at hpos
    exact BitVec.eq_of_toNat_eq hpos
  · have hstart := startRun_legal (s := s) (by rw [hl]; exact Nat.zero_le _)
    refine ⟨finishOk (startRun s), step_cleanEnd ?_ ?_ ?_ ?_, rfl, rfl, ?_, ?_⟩ <;>
      simp [hstart, ht, ha, hl]

/-! ### A stream that ends inside a token -/

/-- The stream ends inside a token's fixed bytes: the step raises `SourceExhausted` (R131, R179). -/
theorem step_of_needs {s : State} {k : Nat} (hr : s.runState = .run) (ht : s.turns = []) (hb : 0 < s.srcBudget.toNat)
    (hk : s.srcBudget.toNat < k) (h : decode s.algRun s.fetchBytes = .needs k) : step s = .next (s.failedWith 1) := by
  have hf : s.fetch = .cutShort := by simp only [State.fetch, if_neg hb.ne', h, if_pos hk]
  rw [step_nil ht, engineStep_run hr, hf]
  rfl

/-- The bytes looked at begin with the control byte, where it is known (R66). -/
theorem fetchBytes_cons {s : State} {b : Byte} {n : Nat} (hn : s.srcBudget.toNat = n + 1)
    (h : s.inp.read s.srcPos.toNat = some b) :
    s.fetchBytes = b :: knownBytes s.inp (s.srcPos.toNat + 1) (min 3 n) := by
  rw [State.fetchBytes, hn, Nat.add_min_add_right 3 n 1, knownBytes, h]

theorem decodeV1_short {bs : List Byte} (h : bs.length < 4) : decodeV1 bs = .needs 4 :=
  match bs, h with
  | [], _ => rfl
  | [_], _ => rfl
  | [_, _], _ => rfl
  | [_, _, _], _ => rfl

theorem decodeShape3_short (b : Byte) {bs : List Byte} (h : bs.length < 2) : decodeShape3 b bs = .needs 3 :=
  match bs, h with
  | [], _ => rfl
  | [_], _ => rfl

/-- A control byte alone is a token only as a literal run (R95, R97). -/
theorem decodeV2_alone {b : Byte} (h : b.toNat % 4 ≠ 0 ∨ b.toNat = 0) : ∃ k, 1 < k ∧ decodeV2 [b] = .needs k := by
  rcases tag_cases (b.extractLsb' 0 2) with ht | ht | ht | ht
  · obtain rfl : b = 0 := BitVec.eq_of_toNat_eq (by
      have := congrArg BitVec.toNat ht
      rw [toNat_field] at this
      exact h.resolve_left (by simpa using this))
    exact ⟨2, by decide, rfl⟩
  · exact ⟨2, by decide, decodeV2_of_tag1 ht []⟩
  · exact ⟨2, by decide, decodeV2_of_tag2 ht []⟩
  · exact ⟨3, by decide, decodeV2_of_tag3 ht []⟩

/-- Settles O29: in each clause the bytes that may be looked at stop before the decoder has all it needs. -/
theorem cutShortTokenIsSourceExhausted : Obligations.CutShortTokenIsSourceExhausted := by
  unfold Obligations.CutShortTokenIsSourceExhausted
  intro s hr ht
  have hlen := length_fetchBytes_le s
  refine ⟨fun ha h1 h3 => ?_, fun b0 ha h0 => ⟨fun h1 hb => ?_, fun h2 hb => ?_, fun m h2 hb hm hne => ?_⟩⟩
  · refine step_of_needs (k := 4) hr ht h1 (by omega) ?_
    rw [ha]
    exact decodeV1_short (by omega)
  · obtain ⟨k, hk, hd⟩ := decodeV2_alone hb
    refine step_of_needs hr ht (by omega) (h1.symm ▸ hk) ?_
    rw [ha, fetchBytes_cons h1 h0]
    exact hd
  · refine step_of_needs (k := 3) hr ht (by omega) (by omega) ?_
    rw [ha, fetchBytes_cons h2 h0]
    exact (decodeV2_of_tag3 (tag_of_mod hb) _).trans (decodeShape3_short b0 (Nat.lt_succ_of_le (length_knownBytes_le ..)))
  · obtain rfl : b0 = 0 := BitVec.eq_of_toNat_eq hb
    refine step_of_needs (k := 3) hr ht (by omega) (by omega) ?_
    rw [ha, fetchBytes_cons h2 h0]
    simp only [show min 3 1 = 1 from rfl, knownBytes, hm]
    exact decodeShape0_noValue hne

end Sys2Proof.Machine
end

section
/-! PROOFS. The tokens of V2 in terms of their checks and transfers: the checks walked in order (R140, R224), then what each token
writes when they pass, and the fault of the first that fails. -/

namespace Sys2Proof.Machine

/-! ### Walking the checks -/

section
variable {s : State}

theorem src_fails {k : Nat} {kind : FaultKind} (h : s.srcBudget.toNat < k) : (Check.src k kind).failure s = some kind :=
  if_pos h

theorem src_passes {k : Nat} {kind : FaultKind} (h : k ≤ s.srcBudget.toNat) : (Check.src k kind).failure s = none :=
  if_neg (Nat.not_lt.mpr h)

theorem dst_fails {k : Nat} (h : s.dstBudget.toNat < k) : (Check.dst k).failure s = some .destinationOverrun := if_pos h

theorem dst_passes {k : Nat} (h : k ≤ s.dstBudget.toNat) : (Check.dst k).failure s = none := if_neg (Nat.not_lt.mpr h)

theorem backRef_fails {off len w : Nat} (h : w < off ∨ (off = 0 ∧ 0 < len)) :
    (Check.backRef off len w).failure s = some .invalidBackReference := by
  rw [failure_backRef, if_neg]
  rintro ⟨hw, ho⟩
  omega

theorem backRef_passes {off len w : Nat} (hw : off ≤ w) (ho : off = 0 → len = 0) :
    (Check.backRef off len w).failure s = none := by
  rw [failure_backRef, if_pos ⟨hw, ho⟩]

variable {c : Check} {cs : List Check} {commit : State → Except Fault State}

theorem runToken_cons_fails {k : FaultKind} (h : c.failure s = some k) :
    runToken (c :: cs) commit s = .next (s.failedWith k.code) :=
  runToken_fails (by rw [firstFailure_cons, h, Option.some_or])

theorem runToken_cons_passes (h : c.failure s = none) : runToken (c :: cs) commit s = runToken cs commit s := by
  simp only [runToken, firstFailure_cons, h, Option.none_or]

theorem runToken_nil {t : State} (h : commit s = .ok t) : runToken [] commit s = .next t := runToken_commits rfl h

end

/-! ### Literal runs and fills -/

/-- Known literals that both budgets cover are copied, after `j` source bytes were consumed (R134). -/
theorem copyLit_completes {s : State} {a j k : Nat} (hs : s.cursorsAgree) (hj : j + k ≤ s.srcBudget.toNat)
    (hk : k ≤ s.dstBudget.toNat) (hl : s.literalsKnown a k) :
    ∃ m, copyLit a k (consume j s) = .ok (s.afterToken (j + k) k m) ∧ Wrote s k m ∧
      ∀ i, i < k → m.read (s.dstPos.toNat + i) = s.inp.read (a + i) := by
  obtain ⟨m, hc, hm, -⟩ := writeDest_completes (f := fun i => (s.inp.read (a + i)).getD 0) hs hj hk
    fun i _ hi => readIn_getD (hl i hi)
  obtain ⟨m', hw, he⟩ := writeDest_consume_ok hs hj hk hc
  obtain rfl : m = m' := congrArg State.out he
  refine ⟨m, ?_, hw, fun i hi => ?_⟩
  · rw [copyLit, consume_consume]
    exact hc
  · rw [hm i hi, Option.getD_of_ne_none (Option.isSome_iff_ne_none.mp (hl i hi))]

/-- Settles O8: both checks pass, and the commit is the copy of the literals. -/
theorem literalRunCopiesItsBytes : Obligations.LiteralRunCopiesItsBytes := by
  unfold Obligations.LiteralRunCopiesItsBytes
  intro n s hs hj hk hl
  obtain ⟨m, hc, hw, hm⟩ := copyLit_completes hs hj hk hl
  refine ⟨m, ?_, hm, hw.outside⟩
  rw [exec, execLit, runToken_cons_passes (src_passes hj), runToken_cons_passes (dst_passes hk)]
  exact runToken_nil hc

/-- Settles O18: the source is checked before the destination. -/
theorem literalRunFaults : Obligations.LiteralRunFaults := by
  unfold Obligations.LiteralRunFaults
  intro n s
  rw [exec, execLit]
  refine ⟨fun h => runToken_cons_fails (src_fails h), fun hj h => ?_⟩
  rw [runToken_cons_passes (src_passes hj)]
  exact runToken_cons_fails (dst_fails h)

/-- Settles O9: the checks pass, and the commit writes one constant byte. -/
theorem fillWritesCopiesOfItsByte : Obligations.FillWritesCopiesOfItsByte := by
  unfold Obligations.FillWritesCopiesOfItsByte
  intro m v s hs hj hk
  obtain ⟨o, hc, ho, hout⟩ := writeDest_completes (rd := fun _ _ => .ok v) (f := fun _ => v) hs hj hk fun _ _ _ => rfl
  refine ⟨o, ?_, ho, hout⟩
  rw [exec, execFill, runToken_cons_passes (src_passes (Nat.le_of_succ_le hj)), runToken_cons_passes (src_passes hj),
    runToken_cons_passes (dst_passes hk)]
  exact runToken_nil hc

/-- Settles O19: the two source checks of `FILL` raise the same fault, so that the budget fails one of them below 3; then the
destination is checked. `END` has its source check alone. -/
theorem fillFaults : Obligations.FillFaults := by
  unfold Obligations.FillFaults
  intro m v s
  simp only [exec, execFill, execEndPage]
  refine ⟨fun h => ?_, fun hj h => ?_, fun h => runToken_cons_fails (src_fails h)⟩
  · rcases Nat.lt_or_ge s.srcBudget.toNat 2 with h2 | h2
    · exact runToken_cons_fails (src_fails h2)
    · rw [runToken_cons_passes (src_passes h2)]
      exact runToken_cons_fails (src_fails h)
  · rw [runToken_cons_passes (src_passes (Nat.le_of_succ_le hj)), runToken_cons_passes (src_passes hj)]
    exact runToken_cons_fails (dst_fails h)

/-! ### The end marker -/

/-- Settles O10: its two bytes decode to it alone, and its commit consumes them and ends the run. -/
theorem endMarkerEndsTheRun : Obligations.EndMarkerEndsTheRun := by
  unfold Obligations.EndMarkerEndsTheRun
  refine ⟨fun rest => decode_encode_append (i := .endPage) rfl rest, fun s hj => ?_⟩
  rw [exec, execEndPage, runToken_cons_passes (src_passes hj)]
  refine runToken_nil ?_
  rw [consume_eq_afterToken 2 s hj]
  simp [finishOk, State.afterToken]

/-! ### Back-references -/

theorem Wrote.knownBelow {s : State} {k : Nat} {m : Memory} (w : Wrote s k m) (h : s.out.knownBelow s.dstPos.toNat) :
    m.knownBelow (s.dstPos.toNat + k) := fun a ha => by
  rcases Nat.lt_or_ge a s.dstPos.toNat with hl | hl
  · exact w.isSome (h a hl)
  · exact w.known a hl ha

/-- A valid copy that the destination budget covers advances the destination, and byte `j` of it is the byte `off` before it; an
offset of 0 is valid for no bytes (R134, R138, R180). -/
theorem copyBack_advances {s : State} {off k : Nat} (ho : off = 0 → k = 0) (hw : off ≤ s.dstPos.toNat)
    (hs : s.cursorsAgree) (hk : k ≤ s.dstBudget.toNat) (hn : s.out.knownBelow s.dstPos.toNat) :
    ∃ m, copyBack off k s = .ok (s.afterToken 0 k m) ∧ s.keepsOutside k m ∧
      ∀ j, j < k → m.read (s.dstPos.toNat + j) = m.read (s.dstPos.toNat - off + j) := by
  rcases Nat.eq_zero_or_pos off with h0 | hpos
  · obtain rfl := ho h0
    exact ⟨s.out, writeDest_of_run hk rfl, fun _ _ => rfl, nofun⟩
  · obtain ⟨t, ht, hout, hback⟩ := copyBack_completes hpos hw (room_le hs hk) hn
    obtain ⟨m, -, rfl⟩ := writeDest_ok hk ht
    exact ⟨m, ht, hout, hback⟩

/-- Shapes 1 and 3 where every check passes: the literals, then the copy from behind the cursor after them (R174, R176,
R177). -/
theorem runBackRef_completes {s : State} {hdr nr len off : Nat} (hs : s.cursorsAgree)
    (hj : hdr + nr ≤ s.srcBudget.toNat) (hk : nr + len ≤ s.dstBudget.toNat) (hw : off ≤ s.dstPos.toNat + nr)
    (ho : off = 0 → len = 0) (hl : s.literalsKnown (s.srcPos.toNat + hdr) nr) (hn : s.out.knownBelow s.dstPos.toNat) :
    ∃ m, runBackRef hdr nr len off s = .next (s.afterToken (hdr + nr) (nr + len) m) ∧
      (∀ j, j < nr → m.read (s.dstPos.toNat + j) = s.inp.read (s.srcPos.toNat + hdr + j)) ∧
      (∀ j, j < len → m.read (s.dstPos.toNat + nr + j) = m.read (s.dstPos.toNat + nr - off + j)) ∧
      s.keepsOutside (nr + len) m := by
  have hnr : nr ≤ s.dstBudget.toNat := Nat.le_of_add_right_le hk
  obtain ⟨m₁, hlit, hwrote, hlits⟩ := copyLit_completes hs hj hnr hl
  obtain ⟨hs₁, -, -, hd, hb⟩ := cursorsAgree_afterToken (m := m₁) hs hj hnr
  obtain ⟨m, hcopy, hkeep, hback⟩ := copyBack_advances (s := s.afterToken (hdr + nr) nr m₁) ho (hd ▸ hw) hs₁ (by omega)
    (hd ▸ hwrote.knownBelow hn)
  rw [State.keepsOutside, hd] at hkeep
  rw [hd] at hback
  refine ⟨m, ?_, fun j hj => ?_, hback, fun a ha => ?_⟩
  · rw [runBackRef, runToken_cons_passes (src_passes (Nat.le_of_add_right_le hj)), runToken_cons_passes (src_passes hj),
      runToken_cons_passes (dst_passes hnr), runToken_cons_passes (backRef_passes hw ho), runToken_cons_passes (dst_passes hk)]
    refine runToken_nil ?_
    have hroom := room_le hs hnr
    have hsrc := covered_le hs hj
    obtain ⟨hlen, -, -⟩ := hs
    rw [hlit, Except.bind, hcopy, afterToken_afterToken _ _ _ _ _ _ _ (by omega) (by omega)]
    rfl
  · rw [hkeep _ (.inl (by omega)), afterToken_out, hlits j hj]
  · rw [hkeep a (by omega), afterToken_out, hwrote.outside a (by omega)]

/-- Settles O11: shape 1, where a valid offset is not 0. -/
theorem shapeOneCopiesPrefixThenBack : Obligations.ShapeOneCopiesPrefixThenBack := by
  unfold Obligations.ShapeOneCopiesPrefixThenBack
  exact fun nr len off s hs hj hk hw ho hl hn => runBackRef_completes hs hj hk hw (fun h => absurd h ho) hl hn

/-- Settles O13: shape 3, with the offset 0 for no bytes among the valid ones. -/
theorem shapeThreeCopiesPrefixThenBack : Obligations.ShapeThreeCopiesPrefixThenBack := by
  unfold Obligations.ShapeThreeCopiesPrefixThenBack
  exact fun nr len off s hs hj hk hw ho hl hn => runBackRef_completes hs hj hk hw ho hl hn

/-- Settles O12: the commit is the copy of O14, after the two bytes of the token were consumed. -/
theorem shapeTwoCopiesBack : Obligations.ShapeTwoCopiesBack := by
  unfold Obligations.ShapeTwoCopiesBack
  intro len off s hs hj hk hw ho hn
  obtain ⟨t, hc, hpattern⟩ := overlappingCopyRepeatsThePattern off.toNat len.toNat (consume 2 s) (Nat.pos_of_ne_zero ho) hw
    (room_le (s := s) hs hk) hn
  obtain ⟨m, hwrote, rfl⟩ := writeDest_consume_ok hs hj hk hc
  refine ⟨m, ?_, hpattern, hwrote.outside⟩
  rw [exec, execBr2, runToken_cons_passes (src_passes hj),
    runToken_cons_passes (backRef_passes hw fun h => absurd h ho), runToken_cons_passes (dst_passes hk)]
  exact runToken_nil hc

/-- The faults of shapes 1 and 3 in their order: the header, the literals in the source, the literals in the page, the offset, the
copy in the page (R174, R176, R180). -/
theorem runBackRef_faults (hdr nr len off : Nat) (s : State) :
    (s.srcBudget.toNat < hdr → runBackRef hdr nr len off s = .next (s.failedWith 1)) ∧
    (hdr ≤ s.srcBudget.toNat → s.srcBudget.toNat < hdr + nr → runBackRef hdr nr len off s = .next (s.failedWith 2)) ∧
    (hdr + nr ≤ s.srcBudget.toNat → s.dstBudget.toNat < nr → runBackRef hdr nr len off s = .next (s.failedWith 3)) ∧
    (hdr + nr ≤ s.srcBudget.toNat → nr ≤ s.dstBudget.toNat → s.dstPos.toNat + nr < off ∨ (off = 0 ∧ 0 < len) →
      runBackRef hdr nr len off s = .next (s.failedWith 4)) ∧
    (hdr + nr ≤ s.srcBudget.toNat → nr ≤ s.dstBudget.toNat → off ≤ s.dstPos.toNat + nr → (off = 0 → len = 0) →
      s.dstBudget.toNat < nr + len → runBackRef hdr nr len off s = .next (s.failedWith 3)) := by
  refine ⟨fun h => runToken_cons_fails (src_fails h), fun hh h => ?_, fun hj h => ?_, fun hj hn h => ?_,
    fun hj hn hw ho h => ?_⟩
  · rw [runBackRef, runToken_cons_passes (src_passes hh)]
    exact runToken_cons_fails (src_fails h)
  all_goals
    rw [runBackRef, runToken_cons_passes (src_passes (Nat.le_of_add_right_le hj)), runToken_cons_passes (src_passes hj)]
  · exact runToken_cons_fails (dst_fails h)
  · rw [runToken_cons_passes (dst_passes hn)]
    exact runToken_cons_fails (backRef_fails h)
  · rw [runToken_cons_passes (dst_passes hn), runToken_cons_passes (backRef_passes hw ho)]
    exact runToken_cons_fails (dst_fails h)

/-- Settles O20: a well-formed length is not 0, so that the offset 0 is never valid. -/
theorem backReferenceShapeOneFaults : Obligations.BackReferenceShapeOneFaults := by
  unfold Obligations.BackReferenceShapeOneFaults
  intro nr len off s hwf
  have hlen : 0 < len.toNat := by
    simp only [Instr.wf, Bool.and_eq_true, decide_eq_true_eq] at hwf
    omega
  obtain ⟨h1, h2, h3, h4, h5⟩ := runBackRef_faults 2 nr.toNat len.toNat off.toNat s
  exact ⟨h1, h2, h3, fun hj hn h => h4 hj hn (h.imp_right fun h0 => ⟨h0, hlen⟩),
    fun hj hn hw ho => h5 hj hn hw fun h0 => absurd h0 ho⟩

/-- Settles O22: shape 3 takes every length, 0 among them. -/
theorem backReferenceShapeThreeFaults : Obligations.BackReferenceShapeThreeFaults := by
  unfold Obligations.BackReferenceShapeThreeFaults
  exact fun nr len off s => runBackRef_faults 3 nr.toNat len.toNat off.toNat s

/-- Settles O21: the offset is checked before the destination, and a well-formed length is not 0. -/
theorem backReferenceShapeTwoFaults : Obligations.BackReferenceShapeTwoFaults := by
  unfold Obligations.BackReferenceShapeTwoFaults
  intro len off s hwf
  have hlen : 0 < len.toNat := by
    simp only [Instr.wf, Bool.and_eq_true, decide_eq_true_eq] at hwf
    omega
  rw [exec, execBr2]
  refine ⟨fun h => runToken_cons_fails (src_fails h), fun hj h => ?_, fun hj hw ho h => ?_⟩
  all_goals rw [runToken_cons_passes (src_passes hj)]
  · exact runToken_cons_fails (backRef_fails (h.imp_right fun h0 => ⟨h0, hlen⟩))
  · rw [runToken_cons_passes (backRef_passes hw fun h0 => absurd h0 ho)]
    exact runToken_cons_fails (dst_fails h)

end Sys2Proof.Machine
end

section
/-! PROOFS. How a V2 run ends: with success by the end marker alone, and with `SourceExhausted` where the source ends first. -/

namespace Sys2Proof.Machine

/-- A V2 step that begins with `src_rem = 0` raises `SourceExhausted` (R178). -/
theorem step_missingEnd {s : State} (hr : s.runState = .run) (ht : s.turns = []) (ha : s.algRun = .v2)
    (hb : s.srcBudget.toNat = 0) : step s = .next (s.failedWith 1) := by
  rw [step_nil ht, engineStep_run hr, fetch_endOfSource.mpr hb]
  simp only [runFetched, ha]
  rfl

/-- A fetched token's fixed bytes stand in `IN` at the source cursor (R26, R110). -/
theorem read_of_fetch {s : State} {i : Instr} (h : s.fetch = .token i) {j : Nat} {b : Byte} (hb : (encode i)[j]? = some b) :
    s.inp.read (s.srcPos.toNat + j) = some b := by
  simp only [State.fetch] at h
  split at h
  · cases h
  · split at h
    · next i' rest hd =>
      obtain rfl := Fetched.token.inj h
      refine getElem?_knownBytes (k := min 4 s.srcBudget.toNat) ?_
      rw [← State.fetchBytes, encode_of_decode hd]
      exact (List.getElem?_append_left (List.getElem?_eq_some_iff.mp hb).1).trans hb
    · split at h <;> cases h

/-- A token whose commit only moves the cursors keeps the run state or ends the run with a fault. -/
theorem runToken_runState {cs : List Check} {commit : State → Except Fault State} {s t : State}
    (hc : ∀ u, commit s = .ok u → s.MovedTo u) (h : runToken cs commit s = .next t) :
    t.runState = s.runState ∨ t.runState = .doneErr := by
  rcases runToken_next h with ⟨k, -, rfl⟩ | ⟨-, hu⟩
  · exact .inr rfl
  · rw [hc t hu]
    exact .inl rfl

theorem runBackRef_runState {hdr nr len off : Nat} {s t : State} (h : runBackRef hdr nr len off s = .next t) :
    t.runState = s.runState ∨ t.runState = .doneErr := by
  refine runToken_runState (fun u hu => ?_) h
  obtain ⟨x, hx, hu⟩ := bind_ok hu
  exact (((consume_movedTo _ s).trans (consume_movedTo _ _)).trans (writeDest_movedTo hx)).trans (writeDest_movedTo hu)

/-- No token but `END` ends a run with success, from any state (R173, R204). -/
theorem exec_runState {i : Instr} {s t : State} (hi : i ≠ .endPage) (h : exec i s = .next t) :
    t.runState = s.runState ∨ t.runState = .doneErr := by
  cases i with
  | record rep span => exact exec_record_runState h
  | lit n =>
    rw [exec, execLit] at h
    exact runToken_runState
      (fun u hu => ((consume_movedTo _ s).trans (consume_movedTo _ _)).trans (writeDest_movedTo hu)) h
  | fill m v =>
    rw [exec, execFill] at h
    exact runToken_runState (fun u hu => (consume_movedTo _ s).trans (writeDest_movedTo hu)) h
  | endPage => exact absurd rfl hi
  | br1 nr len off => exact runBackRef_runState h
  | br2 len off =>
    rw [exec, execBr2] at h
    exact runToken_runState (fun u hu => (consume_movedTo _ s).trans (writeDest_movedTo hu)) h
  | br3 nr len off => exact runBackRef_runState h

/-- A V2 step that ends the run with success has fetched `END` (R173, R205). -/
theorem fetch_endPage_of_success {s t : State} (hr : s.runState = .run) (ha : s.algRun = .v2) (h : engineStep s = .next t)
    (hd : t.runState = .doneOk) : s.fetch = .token .endPage := by
  rw [engineStep_run hr] at h
  cases hf : s.fetch with
  | endOfSource =>
    simp only [hf, runFetched, ha] at h
    obtain rfl := Host.Outcome.next.inj h
    cases hd
  | cutShort =>
    simp only [hf, runFetched] at h
    obtain rfl := Host.Outcome.next.inj h
    cases hd
  | unwritten a => simp [hf, runFetched] at h
  | token i =>
    rw [hf] at h
    by_cases hi : i = .endPage
    · rw [hi]
    · rcases exec_runState hi h with e | e
      · rw [e, latch_runState, hr] at hd; cases hd
      · rw [e] at hd; cases hd

/-- Settles O28: success is the end marker's, whose two bytes the fetch has found; the end of the source without it is a fault. -/
theorem tokenRunSucceedsOnlyByTheEndMarker : Obligations.TokenRunSucceedsOnlyByTheEndMarker := by
  unfold Obligations.TokenRunSucceedsOnlyByTheEndMarker
  refine ⟨fun s hr ht ha => ⟨fun hb ⟨_, hpos, _⟩ => ?_, fun t h hd => ?_⟩, fun s ht ha hl => ?_⟩
  · have hend : s.srcPos = s.srcLenRun := BitVec.eq_of_toNat_eq (by omega)
    rw [step_missingEnd hr ht ha hb, State.failedWith, hend]
  · rw [step_nil ht] at h
    have hf := fetch_endPage_of_success hr ha h hd
    obtain ⟨-, -, hj⟩ := fetch_token hf
    rw [engineStep_of_fetch hr hf, endMarkerEndsTheRun.2 (s.latch .endPage) hj] at h
    obtain rfl := Host.Outcome.next.inj h
    exact ⟨hj, read_of_fetch hf (j := 0) rfl, read_of_fetch hf (j := 1) rfl, rfl, rfl⟩
  · have hstart := startRun_legal (s := s) (by rw [hl]; exact Nat.zero_le _)
    refine ⟨(startRun s).failedWith 1, step_missingEnd ?_ ?_ ?_ ?_, rfl, rfl, ?_, ?_⟩ <;> simp [hstart, ht, ha, hl]

end Sys2Proof.Machine
end

section
/-! PROOFS. The page driver: START, a halted engine, the three outcomes of the engine's turn in a run, and that every run ends. -/

namespace Sys2Proof.Machine

/-! ### START -/

/-- CLEAR in the same write makes no difference to START, which sets the status itself (R30, R201). -/
theorem startRun_clearRun (s : State) : startRun (clearRun s) = startRun s := by
  by_cases hl : s.srcLen.toNat ≤ pageSize
  · rw [startRun_legal hl, startRun_legal (s := clearRun s) hl]; rfl
  · have hl := Nat.lt_of_not_le hl
    rw [startRun_illegal hl, startRun_illegal (s := clearRun s) hl]; rfl

/-- A `CTRL` write with START, with CLEAR or without it (R30, R31). -/
theorem writeCtrl_start {s : State} {v : Word} (h : s.busy = false) (h0 : v.getLsbD 0 = true) :
    writeCtrl v s = startRun { s with alg := algOfBit (v.getLsbD 1), irqEn := v.getLsbD 2 } := by
  simp only [writeCtrl, performCtrl, h, h0, Bool.false_eq_true, if_false, if_true]
  split
  · exact startRun_clearRun _
  · rfl

/-- Settles O47: the step is the `CTRL` write, which starts a run with the `ALG` just stored, by the two cases of the length. -/
theorem startBeginsARun : Obligations.StartBeginsARun := by
  unfold Obligations.StartBeginsARun
  intro s v ts ht hb h0
  have hw := writeCtrl_start (s := { s with turns := ts }) hb h0
  refine ⟨fun hl => ?_, fun hl => ?_⟩
  · rw [step_writeCtrl ht, hw, startRun_legal]
    exact hl
  · rw [step_writeCtrl ht, hw, startRun_illegal]
    exact hl

/-! ### A halted engine -/

/-- Settles O33: an engine that is not BUSY is not in a run, whichever way it gets the turn. -/
theorem haltedEngineChangesNothing : Obligations.HaltedEngineChangesNothing := by
  unfold Obligations.HaltedEngineChangesNothing
  intro s hb
  have hr := not_run_of_not_busy hb
  exact ⟨fun ht => (step_nil ht).trans (engineStep_idle hr),
    fun ts ht => (step_engine ht).trans (engineStep_idle (s := { s with turns := ts }) hr)⟩

/-! ### The outcomes of a turn in a run -/

/-- No fault kind but the START action's own has a code above 4 (R220). -/
theorem code_le_four {k : FaultKind} (hk : k ≠ .badSourceLength) : k.code.toNat ≤ 4 := by
  cases k with
  | badSourceLength => exact absurd rfl hk
  | _ => decide

/-- The three outcomes of the engine's turn in a run: it goes on past the token that it fetched, succeeds, or fails with the
source cursor at the token's start (R204 to R206, R222). -/
inductive TurnOutcome (s t : State) : Prop where
  | continues (hr : t.runState = .run) (i : Instr) (hf : s.fetch = .token i)
      (hp : t.srcPos.toNat = s.srcPos.toNat + i.length) (hb : t.srcBudget.toNat + i.length = s.srcBudget.toNat)
  | succeeds (hr : t.runState = .doneOk) (hc : t.errCode = 0) (hd : t.dstCount = t.dstPos) (hp : t.srcCount = t.srcPos)
  | fails (hr : t.runState = .doneErr) (hlo : 1 ≤ t.errCode.toNat) (hhi : t.errCode.toNat ≤ 4) (hd : t.dstCount = t.dstPos)
      (hp : t.srcCount = s.srcPos)

/-- A fault of the engine fails the run, from any state whose source cursor is where the turn began. -/
theorem turnOutcome_raiseFault {s u : State} {k : FaultKind} (hk : k ≠ .badSourceLength) (hp : u.srcPos = s.srcPos) :
    TurnOutcome s (raiseFault k u) :=
  .fails rfl (code_range k).1 (code_le_four hk) rfl hp

/-- What a token can leave is one of the three outcomes of the turn that fetched it. -/
theorem TokenEffect.turnOutcome {i : Instr} {s t : State} (hs : s.cursorsAgree) (hr : s.runState = .run)
    (hf : s.fetch = .token i) (h : TokenEffect i (s.latch i) t) : TurnOutcome s t := by
  cases h with
  | failed k hk => exact turnOutcome_raiseFault hk rfl
  | overrun k m hk hm hv hp => exact turnOutcome_raiseFault (by decide) (by simp)
  | committed m hj hk hm he =>
    have no_fault : ((s.latch i).afterToken i.length i.written m).runState ≠ .doneErr := by simp [hr]
    obtain ⟨hp, hb⟩ := (TokenEffect.committed m hj hk hm he).source_advances hs no_fault
    exact .continues hr i hf hp hb
  | finished hj he => exact .succeeds rfl rfl rfl rfl

/-- In a run the engine's turn has one of the three outcomes, unless it stops the model. -/
theorem turnOutcome_of_engineStep {s t : State} (hs : s.cursorsAgree) (hr : s.runState = .run)
    (h : engineStep s = .next t) : TurnOutcome s t := by
  cases engineStep_effect (fun _ => hs) h with
  | halted hn => exact absurd hr hn
  | cleanEnd => exact .succeeds rfl rfl rfl rfl
  | exhausted => exact turnOutcome_raiseFault (by decide) rfl
  | token _ i hf _ ht => exact ht.turnOutcome hs hr hf

/-! ### A run whose input is written -/

/-- A run in progress whose input is written, the engine alone taking turns. -/
structure State.ReadyRun (s : State) : Prop where
  inv : s.Inv
  running : s.runState = .run
  turns : s.turns = []
  ready : s.inputReady

/-- A run whose input is written meets none of the model's stops (R204, R255). -/
theorem State.ReadyRun.progress {s : State} (h : s.ReadyRun) : ∃ t, step s = .next t ∧ TurnOutcome s t := by
  cases e : step s with
  | next t => exact ⟨t, rfl, turnOutcome_of_engineStep (h.inv.cursors h.running) h.running (step_nil h.turns ▸ e)⟩
  | fault f =>
    obtain ⟨a, -, -, ha, hn⟩ := engineStaysInsideTheBuffers s f h.inv e
    have known := h.ready a ha
    rw [hn] at known
    cases known
  | refused r => exact absurd (step_nil h.turns ▸ e) (engineStep_not_refused s r)

/-- Settles O34: the turn has one of the three outcomes, and the token of one that goes on has 2 bytes or more. -/
theorem engineStepHasThreeOutcomes : Obligations.EngineStepHasThreeOutcomes := by
  unfold Obligations.EngineStepHasThreeOutcomes
  intro s hs hr ht hi
  obtain ⟨t, h, o⟩ := State.ReadyRun.progress ⟨hs, hr, ht, hi⟩
  refine ⟨t, h, ?_⟩
  cases o with
  | continues hr i hf hp hb =>
    have two : 2 ≤ i.length := two_le_length (fetch_token hf).1
    exact .inl ⟨hr, by omega⟩
  | succeeds hr hc hd hp => exact .inr (.inl ⟨hr, hc, hd, hp⟩)
  | fails hr hlo hhi hd hp => exact .inr (.inr ⟨hr, hlo, hhi, hd, hp⟩)

/-! ### Every run ends -/

/-- A turn that does not end the run leaves a run whose input is written, under the same grammar. -/
theorem State.ReadyRun.step {s t : State} (h : s.ReadyRun) (e : step s = .next t) (hr : t.runState = .run) :
    t.ReadyRun ∧ t.algRun = s.algRun := by
  have he : engineStep s = .next t := step_nil h.turns ▸ e
  obtain ⟨hinp, -, -, -, hlen, halg, -⟩ := engineNeverWritesItsInputs s t he
  refine ⟨⟨everyStepKeepsTheInvariant s t h.inv e, hr, (turns_of_engineStep he).trans h.turns, ?_⟩, halg⟩
  rw [State.inputReady, hinp, hlen]
  exact h.ready

/-- The length of a grammar's shortest tokens (R95). -/
def shortestToken : Grammar → Nat
  | .v1 => 4
  | .v2 => 2

theorem shortestToken_le_length {i : Instr} (h : i.wf = true) : shortestToken i.grammar ≤ i.length := by
  cases i with
  | record rep span => exact Nat.le_add_right 4 _
  | _ => exact two_le_length h

/-- A run is over after `n` turns if the source left is shorter than `n` of the shortest tokens: each turn that goes on
consumes one token. -/
theorem State.ReadyRun.ends {n : Nat} {s : State} (h : s.ReadyRun) (hn : s.srcBudget.toNat < shortestToken s.algRun * n) :
    ∃ t, Sys2Proof.core.run n s = .next t ∧ (t.runState = .doneOk ∨ t.runState = .doneErr) := by
  induction n generalizing s with
  | zero => exact absurd hn (Nat.not_lt_zero _)
  | succ n ih =>
    obtain ⟨t, e, o⟩ := h.progress
    rw [run_next n e]
    have ended (hd : t.runState = .doneOk ∨ t.runState = .doneErr) : Sys2Proof.core.run n t = .next t :=
      run_halted (by rcases hd with hd | hd <;> simp [hd]) ((turns_of_engineStep (step_nil h.turns ▸ e)).trans h.turns) n
    cases o with
    | continues hr i hf hp hb =>
      obtain ⟨h', halg⟩ := h.step e hr
      obtain ⟨hwf, hg, -⟩ := fetch_token hf
      have hlen : shortestToken s.algRun ≤ i.length := hg ▸ shortestToken_le_length hwf
      rw [Nat.mul_succ] at hn
      exact ih h' (by rw [halg]; omega)
    | succeeds hr => exact ⟨t, ended (.inl hr), .inl hr⟩
    | fails hr => exact ⟨t, ended (.inr hr), .inr hr⟩

/-- Settles O38, by induction on the turns that are enough for the source left. -/
theorem everyRunEnds : Obligations.EveryRunEnds := by
  unfold Obligations.EveryRunEnds
  intro s hs hr ht hi
  have turns : (if s.algRun = .v1 then s.srcBudget.toNat / 4 + 1 else s.srcBudget.toNat / 2 + 1)
      = s.srcBudget.toNat / shortestToken s.algRun + 1 := by
    cases s.algRun <;> rfl
  have shortest_pos : 0 < shortestToken s.algRun := by cases s.algRun <;> decide
  rw [turns]
  obtain ⟨t, e, hd⟩ := State.ReadyRun.ends ⟨hs, hr, ht, hi⟩ (Nat.lt_mul_div_succ s.srcBudget.toNat shortest_pos)
  have page : s.srcBudget.toNat ≤ 4096 := by
    obtain ⟨hl, hp, -⟩ := hs.cursors hr
    rw [pageSize] at hl
    omega
  exact ⟨t, e, hd, by omega, by omega⟩

end Sys2Proof.Machine
end

section
/-! PROOFS. Independent instances: what a step of one instance does to the platform (R233). -/

namespace Sys2Proof.Machine

/-- What a step of instance `k` can do: nothing, where the platform has no instance `k`, or put the state that instance's own
step gives in its place. -/
theorem Platform.stepInstance_cases {p q : Platform} {k : Nat} (h : p.stepInstance k = .next q) :
    (p.instances[k]? = none ∧ q = p) ∨
      ∃ s t, p.instances[k]? = some s ∧ step s = .next t ∧ q.instances = p.instances.set k t := by
  unfold Platform.stepInstance at h
  split at h
  next hk =>
    cases h
    exact .inl ⟨hk, rfl⟩
  next s hk =>
    split at h
    next t e =>
      cases h
      exact .inr ⟨s, t, hk, e, rfl⟩
    all_goals contradiction

/-- Settles O44: the platform is as it was, or one entry of its list of instances is replaced by that entry's own step. -/
theorem instancesAreIndependent : Obligations.InstancesAreIndependent := by
  unfold Obligations.InstancesAreIndependent
  intro p q k h
  obtain ⟨absent, rfl⟩ | ⟨s, t, hs, e, hq⟩ := Platform.stepInstance_cases h
  · exact ⟨rfl, fun _ _ => rfl, fun s hs => by simp [absent] at hs⟩
  · rw [hq]
    refine ⟨List.length_set, fun j hj => List.getElem?_set_ne hj.symm, fun s' hs' => ?_⟩
    obtain rfl : s = s' := Option.some.inj (hs.symm.trans hs')
    have inRange : k < p.instances.length := (List.getElem?_eq_some_iff.mp hs).1
    exact ⟨t, e, List.getElem?_set_self inRange⟩

end Sys2Proof.Machine
end

section
/-! PROOFS. Reset and the model's stop: reset from any state, and the unwritten byte at which the fetch or the commit of a token
stops the model (R255). -/

namespace Sys2Proof.Machine

/-- Settles O46: the turn is the host's, and a reset is admitted in any state. -/
theorem resetAbandonsARun : Obligations.ResetAbandonsARun := by
  unfold Obligations.ResetAbandonsARun
  intro s ts ht
  rw [step_host ht, hostStep, resetBlock]

/-! ### The fetch -/

/-- A fetch stops at an unwritten byte where the known ones before it do not decode and the source covers what they need
(R255). -/
theorem fetch_of_unwritten {s : State} {bs : List Byte} {k : Nat}
    (hbs : ∀ j, j < bs.length → s.inp.read (s.srcPos.toNat + j) = bs[j]?)
    (hn : s.inp.read (s.srcPos.toNat + bs.length) = none) (hd : decode s.algRun bs = .needs k)
    (hk : k ≤ s.srcBudget.toNat) : s.fetch = .unwritten (s.srcPos.toNat + bs.length) := by
  obtain ⟨hlt, hk4⟩ := decode_needs hd
  have hfb : s.fetchBytes = bs := knownBytes_eq hbs hn (by omega)
  have hb : s.srcBudget.toNat ≠ 0 := by omega
  simp only [State.fetch, if_neg hb, hfb, hd, if_neg (Nat.not_lt.mpr hk)]

/-! ### The literals -/

section
variable {s : State} {j : Nat}

/-- A replay of one whole span or more stops in its first repetition, at the first unwritten byte of the span (R150). -/
theorem replaySpan_stops {t : State} {a span reps : Nat} (hi : t.inp = s.inp) (hb : t.dstPos.toNat + reps * span ≤ pageSize)
    (hr : 0 < reps) (hj : j < span) (hl : s.literalsKnown a j) (hn : s.inp.read (a + j) = none) :
    replaySpan a span reps t = .error (.unwrittenInput (a + j)) := by
  have hlt : j < reps * span := hj.trans_le (Nat.le_mul_of_pos_left span hr)
  rw [replaySpan, hi]
  exact writeDest_stops hlt hb (fun l h => Nat.mod_eq_of_lt (h.trans_lt hj)) hl hn

/-- A copy of literals stops at the first unwritten one (R134). -/
theorem copyLit_stops {t : State} {a k : Nat} (hi : t.inp = s.inp) (hb : t.dstPos.toNat + k ≤ pageSize) (hj : j < k)
    (hl : s.literalsKnown a j) (hn : s.inp.read (a + j) = none) :
    copyLit a k t = .error (.unwrittenInput (a + j)) := by
  rw [copyLit, hi]
  exact writeDest_stops (t := consume k t) (g := id) hj hb (fun _ _ => rfl) hl hn

theorem commitRecord_stops {rep span : Nat} (hs : s.cursorsAgree) (hk : rep * span ≤ s.dstBudget.toNat) (hr : 0 < rep)
    (hj : j < span) (hl : s.literalsKnown (s.srcPos.toNat + 4) j) (hn : s.inp.read (s.srcPos.toNat + 4 + j) = none) :
    commitRecord rep span s = .error (.unwrittenInput (s.srcPos.toNat + 4 + j)) :=
  replaySpan_stops (consume_inp _ s) (room_le (s := s) hs hk) hr hj hl hn

/-- A record that overruns reads its span where one repetition of it fits (R152). -/
theorem overrunRecord_stops {span : Nat} (hs : s.cursorsAgree) (hk : span ≤ s.dstBudget.toNat) (hj : j < span)
    (hl : s.literalsKnown (s.srcPos.toNat + 4) j) (hn : s.inp.read (s.srcPos.toNat + 4 + j) = none) :
    overrunRecord span s = .error (.unwrittenInput (s.srcPos.toNat + 4 + j)) := by
  have hq : 0 < s.dstBudget.toNat / span := Nat.div_pos hk (Nat.zero_lt_of_lt hj)
  rw [overrunRecord, replaySpan_stops rfl (room_le hs (Nat.div_mul_le_self _ _)) hq hj hl hn]

/-- A record whose span is read stops at the span's first unwritten byte, under both values of the parameter (R150, R152). -/
theorem exec_record_stops {rep span : BitVec 16} (hs : s.cursorsAgree) (hlen : 4 + span.toNat ≤ s.srcBudget.toNat)
    (hr : 0 < rep.toNat)
    (hk : rep.toNat * span.toNat ≤ s.dstBudget.toNat ∨
      (s.v1DstCheck = .perRepetition ∧ span.toNat ≤ s.dstBudget.toNat))
    (hj : j < span.toNat) (hl : s.literalsKnown (s.srcPos.toNat + 4) j)
    (hn : s.inp.read (s.srcPos.toNat + 4 + j) = none) :
    exec (.record rep span) s = .fault (.unwrittenInput (s.srcPos.toNat + 4 + j)) := by
  have hsrc := recordSourceChecks_pass hlen
  cases hp : s.v1DstCheck with
  | wholeRecord =>
    have hfit : rep.toNat * span.toNat ≤ s.dstBudget.toNat := hk.resolve_right (by simp [hp])
    rw [exec_record_wholeRecord hp]
    refine runToken_stops ?_ (commitRecord_stops hs hfit hr hj hl hn)
    rw [firstFailure_append, hsrc, Option.none_or, firstFailure_cons, dst_passes hfit]
    rfl
  | perRepetition =>
    rw [exec_record_perRepetition hp]
    refine runToken_stops hsrc ?_
    split
    · next hfit => exact commitRecord_stops hs hfit hr hj hl hn
    · next hover => exact overrunRecord_stops hs (hk.resolve_left hover).2 hj hl hn

theorem execLit_stops {n : BitVec 6} (hs : s.cursorsAgree) (hlen : 1 + n.toNat ≤ s.srcBudget.toNat)
    (hk : n.toNat ≤ s.dstBudget.toNat) (hj : j < n.toNat) (hl : s.literalsKnown (s.srcPos.toNat + 1) j)
    (hn : s.inp.read (s.srcPos.toNat + 1 + j) = none) :
    execLit n s = .fault (.unwrittenInput (s.srcPos.toNat + 1 + j)) := by
  rw [execLit, runToken_cons_passes (src_passes hlen), runToken_cons_passes (dst_passes hk)]
  exact runToken_stops rfl (copyLit_stops (consume_inp 1 s) (room_le (s := s) hs hk) hj hl hn)

/-- Shapes 1 and 3 where every check passes: the literals are copied before any byte is copied back (R174, R176, R177). -/
theorem runBackRef_stops {hdr nr len off : Nat} (hs : s.cursorsAgree) (hlen : hdr + nr ≤ s.srcBudget.toNat)
    (h : nr + len ≤ s.dstBudget.toNat ∧ off ≤ s.dstPos.toNat + nr ∧ (off = 0 → len = 0)) (hj : j < nr)
    (hl : s.literalsKnown (s.srcPos.toNat + hdr) j) (hn : s.inp.read (s.srcPos.toNat + hdr + j) = none) :
    runBackRef hdr nr len off s = .fault (.unwrittenInput (s.srcPos.toNat + hdr + j)) := by
  obtain ⟨hk, hw, ho⟩ := h
  have hnr : nr ≤ s.dstBudget.toNat := Nat.le_of_add_right_le hk
  rw [runBackRef, runToken_cons_passes (src_passes (Nat.le_of_add_right_le hlen)), runToken_cons_passes (src_passes hlen),
    runToken_cons_passes (dst_passes hnr), runToken_cons_passes (backRef_passes hw ho), runToken_cons_passes (dst_passes hk)]
  refine runToken_stops rfl ?_
  rw [copyLit_stops (consume_inp hdr s) (room_le (s := s) hs hnr) hj hl hn, Except.bind]

/-- Once for all tokens: one whose literals are read stops the model at the first unwritten one (R255). -/
theorem exec_stops {i : Instr} (hs : s.cursorsAgree) (h : s.readsLiterals i) (hj : j < i.literalLength)
    (hl : s.literalsKnown (s.srcPos.toNat + i.fixedLength) j)
    (hn : s.inp.read (s.srcPos.toNat + i.fixedLength + j) = none) :
    exec i s = .fault (.unwrittenInput (s.srcPos.toNat + i.fixedLength + j)) := by
  obtain ⟨hlen, hread⟩ := h
  cases i with
  | record rep span => exact exec_record_stops hs hlen hread.1 hread.2 hj hl hn
  | lit n => exact execLit_stops hs hlen hread hj hl hn
  | fill m v => exact hread.elim
  | endPage => exact hread.elim
  | br1 nr len off => exact runBackRef_stops hs hlen hread hj hl hn
  | br2 len off => exact hread.elim
  | br3 nr len off => exact runBackRef_stops hs hlen hread hj hl hn

end

/-- Settles O30: a fixed byte stops the fetch; the fetch finds a token whose fixed bytes are known, and a literal byte stops its
commit. -/
theorem unwrittenInputStopsTheModel : Obligations.UnwrittenInputStopsTheModel := by
  unfold Obligations.UnwrittenInputStopsTheModel
  intro s hr ht hs
  refine ⟨fun bs k hbs hn hd hk => ?_, fun i rest j hd h hj hl hn => ?_⟩
  · rw [step_nil ht, engineStep_run hr, fetch_of_unwritten hbs hn hd hk, runFetched]
  · have hb : 0 < s.srcBudget.toNat :=
      calc 0 < i.fixedLength := fixedLength_pos i
        _ ≤ i.length := Nat.le_add_right _ _
        _ ≤ s.srcBudget.toNat := h.1
    rw [step_nil ht, engineStep_of_fetch hr (fetch_of_decode hb hd)]
    exact exec_stops (s := s.latch i) hs h hj hl hn

end Sys2Proof.Machine
end

section
/-! PROOFS. The parameter `P_V1_DST_CHECK` (R152): it stays through the engine's turn and through every move of the host, reset
included (log entries 5, 6). -/

namespace Sys2Proof.Machine

/-! ### The host's moves -/

@[simp] theorem startRun_v1DstCheck (s : State) : (startRun s).v1DstCheck = s.v1DstCheck := by
  unfold startRun; split <;> rfl

@[simp] theorem writeCtrl_v1DstCheck (v : Word) (s : State) : (writeCtrl v s).v1DstCheck = s.v1DstCheck := by
  cases hb : s.busy with
  | true => rw [writeCtrl_busy hb]
  | false =>
    cases h0 : v.getLsbD 0 with
    | true => rw [writeCtrl_start hb h0, startRun_v1DstCheck]
    | false => rw [writeCtrl_noStart hb h0]; split <;> rfl

@[simp] theorem writeSrcLen_v1DstCheck (v : Word) (s : State) : (writeSrcLen v s).v1DstCheck = s.v1DstCheck := by
  cases hb : s.busy with
  | true => rw [writeSrcLen_busy hb]
  | false => rw [writeSrcLen_stores hb]

@[simp] theorem portWrite_v1DstCheck (p : PortPlace) (d : PortData) (s : State) :
    (portWrite p d s).v1DstCheck = s.v1DstCheck := by
  cases p with
  | ctrl =>
    cases d with
    | word v => exact writeCtrl_v1DstCheck v s
    | byte v => rfl
    | half v => rfl
  | srcLen =>
    cases d with
    | word v => exact writeSrcLen_v1DstCheck v s
    | byte v => rfl
    | half v => rfl
  | inp a => rfl
  | out a => rfl
  | status => rfl
  | dstCount => rfl
  | srcCount => rfl
  | reserved => rfl

theorem HostEffect.v1DstCheck {s t : State} {a : HostAction} (h : HostEffect s a t) : t.v1DstCheck = s.v1DstCheck := by
  cases h with
  | write o d hp => exact portWrite_v1DstCheck _ d s
  | read o w hp => rfl
  | reset => rfl

/-! ### The engine's turn, and every step -/

theorem engineStep_v1DstCheck {s t : State} (h : engineStep s = .next t) : t.v1DstCheck = s.v1DstCheck := by
  obtain ⟨-, -, -, -, -, -, hp, -⟩ := engineNeverWritesItsInputs s t h
  exact hp

/-- Settles O43: whoever has the turn, taking it from the list and the turn itself keep the parameter. -/
theorem noStepChangesTheParameter : Obligations.NoStepChangesTheParameter := by
  unfold Obligations.NoStepChangesTheParameter
  intro s t h
  match ht : s.turns with
  | [] => rw [step_nil ht] at h; exact engineStep_v1DstCheck h
  | .engine :: ts => rw [step_engine ht] at h; exact engineStep_v1DstCheck (s := { s with turns := ts }) h
  | .host a :: ts => rw [step_host ht] at h; exact (hostStep_effect h).v1DstCheck

end Sys2Proof.Machine
end
